-- ==== Sys2Proof/Word.lean ====
section
/-! DEFINITION. The types of values: bytes, 32-bit words, and the fixed byte arrays of the cipher
(`00_scope.md` section 5, rule R4). Everything is unsigned; nothing in the block is signed. -/

namespace Sys2Proof

/-- A byte, 0..255. -/
abbrev Byte := BitVec 8

/-- A 32-bit word: the width of every host-visible register (R5, R41). -/
abbrev Word := BitVec 32

/-- Four consecutive bytes: a word of the key schedule, or one column of the AES state.
It is an array, not an integer; no byte order is involved (R70). -/
abbrev Quad := Vector Byte 4

/-- A flat 16-byte array: a key, a block, a nonce, a round key, or the AES state with byte
`r + 4c` at row `r`, column `c` (R69). -/
abbrev Block := Vector Byte 16

/-- The round-key schedule `RK[0..10]`: eleven 16-byte round keys (R4, R23). -/
abbrev RoundKeys := Vector Block 11

/-- Sixteen zero bytes. -/
abbrev zeroBlock : Block := #v[0, 0, 0, 0, 0, 0, 0, 0, 0, 0, 0, 0, 0, 0, 0, 0]

/-- Eleven zero round keys. -/
abbrev zeroRoundKeys : RoundKeys :=
  #v[zeroBlock, zeroBlock, zeroBlock, zeroBlock, zeroBlock, zeroBlock, zeroBlock, zeroBlock,
     zeroBlock, zeroBlock, zeroBlock]

end Sys2Proof
end

