-- ==== Sys2Proof/Config.lean ====
section
/-! DEFINITION. What one built block fixes and the spec leaves open: `PBUF_SIZE` and `BASE`
(`00_scope.md` rule R5, `93_implementation_defined.md` U3 and U4). The record is an argument of
the model: `State.cfg` carries one, no step changes it, and a statement over all states holds for
every size. -/

namespace Sys2Proof

/-- The open parameters of the block (R5). -/
structure Config where
  /-- `PBUF_SIZE`: capacity of the packet buffer in bytes. -/
  pbufSize : Nat
  /-- `BASE`: bus address of offset 0 of the register window. No rule reads it (U4): the two host
  transactions name offsets. -/
  base : Nat
  deriving DecidableEq, Repr

/-- The constraints of R5: `PBUF_SIZE` a multiple of 4 with `16 <= PBUF_SIZE <= 2^31`, `BASE` a
multiple of 4. -/
abbrev Config.Valid (c : Config) : Prop :=
  c.pbufSize % 4 = 0 ∧ 16 ≤ c.pbufSize ∧ c.pbufSize ≤ 2 ^ 31 ∧ c.base % 4 = 0

/-- DESIGN CHOICE (log entry 1): the size every example of `95_test_vectors.md` uses, and `BASE` 0.
Only `Machine.State.reset` takes it. -/
def Config.examples : Config := { pbufSize := 256, base := 0 }

end Sys2Proof
end

