-- ==== Sys2Proof/Syntax.lean ====
section
/-! DEFINITION. The instruction set: the six commands of `30_encoding.md` rule R61, one constructor
per row of `spec/opcode_table.json`. A command has no operand fields (R60): every operand is a named
register or PBUF range fixed by the command's rule. -/

namespace Sys2Proof

/-- The six commands (R61). There is no other: every other command word is illegal (R62). -/
inductive Instr where
  /-- SETKEY, `0x00000001`: load a key and expand it (R92). -/
  | setkey
  /-- ENCBLK, `0x00000002`: the single-block forward transform (R93). -/
  | encblk
  /-- CTRXOR, `0x00000003`: the CTR transform in place on a range of PBUF (R114). -/
  | ctrxor
  /-- PARSEHDR, `0x00000004`: parse the header of the packet in PBUF (R124). -/
  | parsehdr
  /-- BUILDNONCE, `0x00000005`: derive the nonce from the header fields (R125). -/
  | buildnonce
  /-- CALCROUTE, `0x00000006`: compute the routing values (R126). -/
  | calcroute
  deriving DecidableEq, Repr

end Sys2Proof
end

