-- ==== Sys2Proof/WellFormed.lean ====
section
/-! DEFINITION. Which command words are well formed (`30_encoding.md` rules R60 and R62). A command
has no operands, so every term of `Instr` is a command; the checks are on the word a host writes. -/

namespace Sys2Proof

/-- Bits 7:0 of a command word (R60). -/
def opcodeField (v : Word) : Byte := v.extractLsb' 0 8

/-- Bits 31:8 of a command word (R60). -/
def zeroField (v : Word) : BitVec 24 := v.extractLsb' 8 24

/-- Bits 31:8 must be 0 (R60, D27). -/
def zeroFieldOk (v : Word) : Bool := zeroField v == 0

/-- The opcode is one of `0x01..0x06`: not `0x00` and not `0x07..0xFF` (R62). -/
def opcodeOk (v : Word) : Bool :=
  decide (1 ≤ (opcodeField v).toNat) && decide ((opcodeField v).toNat ≤ 6)

/-- A well-formed command word: the complement of R62's list of illegal encodings. -/
def wellFormedWord (v : Word) : Bool := zeroFieldOk v && opcodeOk v

end Sys2Proof
end

