-- ==== Sys2Proof/Decode.lean ====
section
/-! DEFINITION. The command decoder, total on all 2^32 words, and the encoder
(`30_encoding.md` rules R60 to R63; `spec/opcode_table.json`). -/

namespace Sys2Proof

/-- Why a word is no command. There is one reason (R62). -/
inductive DecodeError where
  /-- Not one of the six words of R61: the write of it to `CMD` raises `ERR_ILLEGAL_CMD` (R144). -/
  | illegalCommand (word : Word)
  deriving DecidableEq, Repr

/-- One row of the opcode table: a word `v` selects the row when `v & mask = word` (R61). -/
structure OpcodeRow where
  word  : Word
  mask  : Word
  instr : Instr
  deriving DecidableEq, Repr

/-- The opcode table (R61; `spec/opcode_table.json`). -/
def opcodeTable : List OpcodeRow :=
  [ { word := 0x00000001, mask := 0xFFFFFFFF, instr := .setkey },
    { word := 0x00000002, mask := 0xFFFFFFFF, instr := .encblk },
    { word := 0x00000003, mask := 0xFFFFFFFF, instr := .ctrxor },
    { word := 0x00000004, mask := 0xFFFFFFFF, instr := .parsehdr },
    { word := 0x00000005, mask := 0xFFFFFFFF, instr := .buildnonce },
    { word := 0x00000006, mask := 0xFFFFFFFF, instr := .calcroute } ]

/-- Whether a word selects a row (R61). -/
def OpcodeRow.selects (r : OpcodeRow) (v : Word) : Bool := v &&& r.mask == r.word

/-- Decode a command word: six rows of R61, everything else R62 (R63). -/
def decode (v : Word) : Except DecodeError Instr :=
  match opcodeTable.find? (·.selects v) with
  | some r => .ok r.instr
  | none => .error (.illegalCommand v)

/-- The opcode of a command (R61). -/
def opcodeOf : Instr → Byte
  | .setkey => 0x01
  | .encblk => 0x02
  | .ctrxor => 0x03
  | .parsehdr => 0x04
  | .buildnonce => 0x05
  | .calcroute => 0x06

/-- The command word of a command: the opcode in bits 7:0, bits 31:8 zero (R60). -/
def encode (i : Instr) : Word := (0 : BitVec 24) ++ opcodeOf i

/-- The decoder asked with the opcode table's numbering of bits. Every row has 32 bits and a command
is one 32-bit word (R60), so a row longer than that names no command; the bits above `nbits` of a
shorter row are 0. A command word is the value of a bus write, so no byte order is involved. -/
def decodeTableWord (nbits w : Nat) : Option Instr :=
  if nbits ≤ 32 then
    match decode (BitVec.ofNat 32 (w % 2 ^ nbits)) with
    | .ok i => some i
    | .error _ => none
  else none

end Sys2Proof
end

