-- ==== Sys2Proof/Machine/State.lean ====
section
/-! DEFINITION. The state of the block (`10_state.md` rule R10), the host side of the model (the
pending host events and the port's last answer), the ways a step can stop, and the state after
reset (rule R28). -/

namespace Sys2Proof.Machine

/-- The packet buffer as (byte index, byte) pairs in one canonical form: indices strictly rising, and
no entry equal to what an unlisted index reads as (`Memory.wf`, `Memory.unlisted` in `Ops.lean`). -/
abbrev Memory := List Host.Cell

/-- What the storage cells that R28 calls unspecified hold after one `RESET` event. The spec fixes
none of these values (U1, U2), so each `RESET` brings its own, as an input. -/
structure ResetDraw where
  /-- The cells of `KEY`. -/
  key : Block
  /-- The cells of `RK[0..10]`. -/
  rk : RoundKeys
  /-- `PBUF[0], PBUF[1], …`; bytes the list does not reach hold `0x00`, entries beyond `PBUF_SIZE`
  are dropped. -/
  pbuf : List Byte
  deriving DecidableEq, Repr

/-- What the outside world can do to the block: the two host transactions of R42, each with the
width in bits it was issued with (R44 refuses every width but 32), and the reset event of R160. -/
inductive HostEvent where
  /-- `HostRead(off)`. -/
  | read (width : Nat) (off : Nat)
  /-- `HostWrite(off, v)`. -/
  | write (width : Nat) (off : Nat) (v : Word)
  /-- `RESET`, with the values the unspecified cells take. -/
  | reset (draw : ResetDraw)
  deriving DecidableEq, Repr

/-- What the host port answered last. It belongs to the host, not to the block: no rule of the block
reads it. -/
inductive Response where
  /-- Nothing since reset. -/
  | idle
  /-- A `HostWrite` was admitted; it returns nothing (R42). -/
  | accepted
  /-- The word a `HostRead` returned (R43). -/
  | data (w : Word)
  /-- The transaction was refused (R44, R146). -/
  | busError
  deriving DecidableEq, Repr

/-- The values of `ERRCODE[7:0]` (R141). -/
inductive ErrCode where
  | none
  | shortHeader
  | noKey
  | illegalCmd
  | range
  deriving DecidableEq, Repr

/-- Reasons the machine stops with a fault. -/
inductive Fault where
  /-- Raised by `memRead` and `memWrite` (through CTRXOR and PARSEHDR) when an engine access would
  leave PBUF. R48 says such an access cannot happen; no command of this model ever raises it
  (safe: the model would stop where the spec gives no behaviour). -/
  | engineOutsidePbuf
  deriving DecidableEq, Repr

/-- Reasons a step has no meaning. -/
inductive Refusal where
  /-- Raised by `exec` for an instruction that has no meaning yet; no arm does so now (safe). -/
  | notModelled (mnemonic : String)
  /-- Raised by CTRXOR when `CtrXor` is given more than 2^36 bytes, where R113 asks a model to
  refuse rather than choose a wrap. `CTR_LEN` has 32 bits, so no state ever reaches it (safe). -/
  | ctrInputTooLong
  deriving DecidableEq, Repr

/-- The complete state of the block (R10), then the model's own fields: the parameters (R5), the
host events still to come and the port's last answer. `CMD` holds no value (R20) and has no field;
the scratch values of a command are not state (R26). -/
structure State where
  /-- `KEY_IN[0..15]`, write-only for the host (R11). -/
  keyIn : Block
  /-- `BLK_IN[0..15]` (R12). -/
  blkIn : Block
  /-- `BLK_OUT[0..15]`, read-only for the host (R13). -/
  blkOut : Block
  /-- `NONCE[0..15]` (R14). -/
  nonce : Block
  /-- `HDR_TO` (R15). -/
  hdrTo : Word
  /-- `HDR_FROM` (R15). -/
  hdrFrom : Word
  /-- `HDR_ID` (R15). -/
  hdrId : Word
  /-- `HDR_MISC`: flags 7:0, channel 15:8, next_hop 23:16, relay_node 31:24 (R15). -/
  hdrMisc : Word
  /-- `ROUTE`, read-only for the host (R19). -/
  route : Word
  /-- `STATUS`: `KEY_VALID` bit 0, `OK` bit 1, the rest reads as 0 (R17). -/
  status : Word
  /-- `ERRCODE`: the error code in bits 7:0, the rest reads as 0 (R18). -/
  errcode : Word
  /-- `PKT_LEN` (R21). -/
  pktLen : Word
  /-- `CTR_OFF` (R22). -/
  ctrOff : Word
  /-- `CTR_LEN` (R22). -/
  ctrLen : Word
  /-- `KEY`, internal (R23). -/
  key : Block
  /-- `RK[0..10]`, internal (R23). -/
  rk : RoundKeys
  /-- `PBUF[0..PBUF_SIZE-1]` (R25). -/
  pbuf : Memory
  /-- The model's own: `PBUF_SIZE` and `BASE`. Not state of the block (R27); no step changes it
  (log entry 1). -/
  cfg : Config
  /-- The model's own: what the outside world does next, oldest first (log entry 5). -/
  inputs : List HostEvent
  /-- The model's own: the host port's last answer (log entry 6). -/
  response : Response
  deriving DecidableEq, Repr

/-- The machine right after reset (R28): every host-visible register 0. `KEY`, `RK` and PBUF are
unspecified there; this one state holds zeros in them (DESIGN CHOICE, log entries 2 and 3), has the
parameters of the spec's examples (log entry 1) and no host event pending. A `RESET` event takes the
unspecified contents as its input instead (`resetEvent`). -/
def State.reset : State where
  keyIn := zeroBlock
  blkIn := zeroBlock
  blkOut := zeroBlock
  nonce := zeroBlock
  hdrTo := 0
  hdrFrom := 0
  hdrId := 0
  hdrMisc := 0
  route := 0
  status := 0
  errcode := 0
  pktLen := 0
  ctrOff := 0
  ctrLen := 0
  key := zeroBlock
  rk := zeroRoundKeys
  pbuf := []
  cfg := Config.examples
  inputs := []
  response := .idle

end Sys2Proof.Machine
end

