-- ==== Sys2Proof/Machine/Flags.lean ====
section
/-! DEFINITION. The bits of `STATUS` (`10_state.md` rule R17), the codes of `ERRCODE`
(`60_exceptions.md` rule R141), and the flag computations and layout of `ROUTE`
(`10_state.md` rule R19, `42_header_parser.md` rules R122 and R123). -/

namespace Sys2Proof.Machine

/-- `STATUS.KEY_VALID`, bit 0. -/
def keyValidMask : Word := 0x00000001

/-- `STATUS.OK`, bit 1. -/
def okMask : Word := 0x00000002

/-- `STATUS.KEY_VALID` of a status word (R17). -/
def statusKeyValid (status : Word) : Bool := status.getLsbD 0

/-- `STATUS.OK` of a status word (R17). -/
def statusOk (status : Word) : Bool := status.getLsbD 1

/-- `STATUS.KEY_VALID <- 1`. Nothing but reset clears it (R17). -/
def setKeyValid (status : Word) : Word := status ||| keyValidMask

/-- `STATUS.OK <- b`. -/
def setOk (status : Word) (b : Bool) : Word :=
  if b then status ||| okMask else status &&& ~~~okMask

/-- The number of an error code (R141). -/
def errWord : ErrCode → Word
  | .none => 0
  | .shortHeader => 1
  | .noKey => 2
  | .illegalCmd => 3
  | .range => 4

/-- The outputs of `CalcRouting` (R122, R123). -/
structure Routing where
  hopLimit : Byte
  hopStart : Byte
  /-- `(hop_start - hop_limit) mod 256`, neither corrected nor clamped on underflow (R123). -/
  skipCount : Byte
  /-- The subtraction underflowed (R123). -/
  skipUf : Bool
  heardDirectly : Bool
  deriving DecidableEq, Repr

/-- `hop_limit = flags & 0x07` (R122). -/
def hopLimitOf (flags : Byte) : Byte := flags &&& 0x07

/-- `hop_start = (flags >> 5) & 0x07` (R122). -/
def hopStartOf (flags : Byte) : Byte := (flags >>> 5) &&& 0x07

/-- `CalcRouting(flags, to_address)` (R122), `skip_count` in 8 bits with its underflow flag (R123).
`heard_directly` is the formula of R122, a test of the destination address alone (C5). -/
def calcRouting (flags : Byte) (toAddress : Word) : Routing where
  hopLimit := hopLimitOf flags
  hopStart := hopStartOf flags
  skipCount := hopStartOf flags - hopLimitOf flags
  skipUf := decide ((hopStartOf flags).toNat < (hopLimitOf flags).toNat)
  heardDirectly := toAddress != 0xFFFFFFFF

/-- A flag as a word. -/
def flagWord (b : Bool) : Word := if b then 1 else 0

/-- The `ROUTE` word of R126: `hop_limit | (hop_start << 4) | (heard_directly << 8) |
(skip_uf << 9) | (skip_count << 16)`, the layout of R19. -/
def packRoute (r : Routing) : Word :=
  r.hopLimit.setWidth 32 ||| (r.hopStart.setWidth 32 <<< 4) ||| (flagWord r.heardDirectly <<< 8)
    ||| (flagWord r.skipUf <<< 9) ||| (r.skipCount.setWidth 32 <<< 16)

end Sys2Proof.Machine
end

