-- ==== Sys2Proof/Machine/Ops.lean ====
section
/-! DEFINITION. The named operations: bytes of the packet buffer, the engine's `MemRead` and
`MemWrite` (`20_memory.md` rule R48), the two endings of a command (`60_exceptions.md` rules R148
and R154), the host port's answer, and the reset event (`70_reset_and_hazards.md` rule R160). -/

namespace Sys2Proof.Machine

/-! ## The packet buffer -/

/-- What a PBUF byte that is not listed reads as. DESIGN CHOICE (log entry 3): the spec leaves the
contents after reset unspecified; a `RESET` event lists the bytes its draw gives. -/
def Memory.unlisted : Byte := 0x00

/-- The canonical form: indices strictly rising, no entry that an unlisted index would read as. -/
abbrev Memory.wf (m : Memory) : Prop :=
  m.Pairwise (fun c d => c.1 < d.1) ∧ ∀ c ∈ m, c.2 ≠ Memory.unlisted

/-- The byte at an index (R40). -/
def Memory.read : Memory → Nat → Byte
  | [], _ => Memory.unlisted
  | (a, b) :: m, k => if a = k then b else Memory.read m k

/-- Put an entry in front, unless an unlisted index reads as it. -/
def Memory.cons (k : Nat) (v : Byte) (m : Memory) : Memory :=
  if v = Memory.unlisted then m else (k, v) :: m

/-- Store a byte at an index, keeping the canonical form. -/
def Memory.write : Memory → Nat → Byte → Memory
  | [], k, v => Memory.cons k v []
  | (a, b) :: m, k, v =>
    if k < a then Memory.cons k v ((a, b) :: m)
    else if k = a then Memory.cons k v m
    else (a, b) :: Memory.write m k v

/-- `PBUF[a..a+n-1]`. -/
def readBytes (m : Memory) (a : Nat) : Nat → List Byte
  | 0 => []
  | n + 1 => m.read a :: readBytes m (a + 1) n

/-- Store a byte array from index `a` on. -/
def writeBytes (m : Memory) (a : Nat) : List Byte → Memory
  | [] => m
  | b :: bs => writeBytes (m.write a b) (a + 1) bs

/-- The packet buffer that holds a byte array from index `a` on and nothing else. -/
def bytesMemory (a : Nat) : List Byte → Memory
  | [] => []
  | b :: bs => Memory.cons a b (bytesMemory (a + 1) bs)

/-- `MemRead(addr, n)`: n bytes of PBUF. `none` when the access would leave PBUF, which R48 rules
out. -/
def memRead (s : State) (addr n : Nat) : Option (List Byte) :=
  if addr + n ≤ s.cfg.pbufSize then some (readBytes s.pbuf addr n) else none

/-- `MemWrite(addr, n, v)` with n the length of v. `none` when the access would leave PBUF, which
R48 rules out. -/
def memWrite (s : State) (addr : Nat) (v : List Byte) : Option State :=
  if addr + v.length ≤ s.cfg.pbufSize then some { s with pbuf := writeBytes s.pbuf addr v }
  else none

/-! ## The two endings of a command -/

/-- `raise Error(code)` (R148): `STATUS.OK <- 0`, `ERRCODE <- code` and nothing else. It is this
block's trap entry; nothing is saved, no mode changes and there is nothing to return from (R149). -/
def raiseError (code : ErrCode) (s : State) : State :=
  { s with status := setOk s.status false, errcode := errWord code }

/-- `succeed` (R154): `STATUS.OK <- 1`, `ERRCODE <- 0`, after the command's own writes. -/
def succeed (s : State) : State :=
  { s with status := setOk s.status true, errcode := errWord .none }

/-! ## The host port and reset -/

/-- The host port answers a transaction; no cell of the block changes. -/
def respond (r : Response) (s : State) : State := { s with response := r }

/-- The host's next event has been taken; `rest` are the events after it. -/
def withInputs (rest : List HostEvent) (s : State) : State := { s with inputs := rest }

/-- The `RESET` event (R160): every host-visible register at the value of R28, and `KEY`, `RK`, PBUF
at the contents the event brings (U1, U2, D31; log entry 4). The parameters and the events still to
come are the model's own and stay. -/
def resetEvent (draw : ResetDraw) (s : State) : State :=
  { State.reset with
    key := draw.key
    rk := draw.rk
    pbuf := bytesMemory 0 (draw.pbuf.take s.cfg.pbufSize)
    cfg := s.cfg
    inputs := s.inputs }

end Sys2Proof.Machine
end

