-- ==== Sys2Proof/Machine/Operands.lean ====
section
/-! DEFINITION. Byte order (`20_memory.md` rule R45, `30_encoding.md` rule R64), the two views of a
sixteen-byte register group, and the register window: which register or PBUF word an offset names
(R41) and what reading and writing it does (R43). -/

namespace Sys2Proof.Machine

/-! ## Byte order -/

/-- `LE32(b0, b1, b2, b3)`: four bytes to a word, the first byte least significant (R64). -/
def le32 (b0 b1 b2 b3 : Byte) : Word := b3 ++ b2 ++ b1 ++ b0

/-- `v[8k+7:8k]`. -/
def byteOf (v : Word) (k : Nat) : Byte := v.extractLsb' (8 * k) 8

/-- `LE32bytes(x) = (x[7:0], x[15:8], x[23:16], x[31:24])` (R64). -/
def le32Bytes (x : Word) : Quad := #v[byteOf x 0, byteOf x 1, byteOf x 2, byteOf x 3]

/-- `BE32bytes(i) = (i[31:24], i[23:16], i[15:8], i[7:0])` (R64). -/
def be32Bytes (i : Word) : Quad := #v[byteOf i 3, byteOf i 2, byteOf i 1, byteOf i 0]

/-- Word `j` of a sixteen-byte group: `LE32(G[4j], G[4j+1], G[4j+2], G[4j+3])` (R45). -/
def groupWord (g : Block) (j : Fin 4) : Word :=
  le32 g[4 * j.val] g[4 * j.val + 1] g[4 * j.val + 2] g[4 * j.val + 3]

/-- Write word `j` of a sixteen-byte group: byte `k` of the group is bits `8*(k mod 4)+7 : 8*(k mod 4)`
of word `k div 4` (R45). -/
def setGroupWord (g : Block) (j : Fin 4) (v : Word) : Block :=
  Vector.ofFn fun k : Fin 16 => if k.val / 4 = j.val then byteOf v (k.val % 4) else g[k]

/-- `LE32(MemRead(addr, 4))`. -/
def memRead32 (s : State) (addr : Nat) : Option Word :=
  match memRead s addr 4 with
  | some [b0, b1, b2, b3] => some (le32 b0 b1 b2 b3)
  | _ => none

/-! ## The register window -/

/-- The registers of the map (R41). -/
inductive Reg where
  | cmd
  | status
  | errcode
  | pktLen
  | ctrOff
  | ctrLen
  | route
  | keyIn (j : Fin 4)
  | blkIn (j : Fin 4)
  | blkOut (j : Fin 4)
  | nonce (j : Fin 4)
  | hdrTo
  | hdrFrom
  | hdrId
  | hdrMisc
  deriving DecidableEq, Repr

/-- What a mapped offset names: a register, or word `w` of the PBUF window (R41). -/
inductive Target where
  | reg (r : Reg)
  | pbufWord (w : Nat)
  deriving DecidableEq, Repr

/-- The register map (R41). `0x01C` and `0x070` to `0x0FC` are unmapped. -/
def registerAt (off : Nat) : Option Reg :=
  match off with
  | 0x000 => some .cmd
  | 0x004 => some .status
  | 0x008 => some .errcode
  | 0x00C => some .pktLen
  | 0x010 => some .ctrOff
  | 0x014 => some .ctrLen
  | 0x018 => some .route
  | 0x020 => some (.keyIn 0)
  | 0x024 => some (.keyIn 1)
  | 0x028 => some (.keyIn 2)
  | 0x02C => some (.keyIn 3)
  | 0x030 => some (.blkIn 0)
  | 0x034 => some (.blkIn 1)
  | 0x038 => some (.blkIn 2)
  | 0x03C => some (.blkIn 3)
  | 0x040 => some (.blkOut 0)
  | 0x044 => some (.blkOut 1)
  | 0x048 => some (.blkOut 2)
  | 0x04C => some (.blkOut 3)
  | 0x050 => some (.nonce 0)
  | 0x054 => some (.nonce 1)
  | 0x058 => some (.nonce 2)
  | 0x05C => some (.nonce 3)
  | 0x060 => some .hdrTo
  | 0x064 => some .hdrFrom
  | 0x068 => some .hdrId
  | 0x06C => some .hdrMisc
  | _ => none

/-- What a window offset names (R40, R41): a register below `0x100`, a PBUF word from `0x100` on,
nothing at an offset that is unmapped or not a multiple of 4 (R44). -/
def windowTarget (pbufSize off : Nat) : Option Target :=
  if off % 4 ≠ 0 then none
  else if off < 0x100 then (registerAt off).map .reg
  else if off < 0x100 + pbufSize then some (.pbufWord ((off - 0x100) / 4))
  else none

/-- The target of a transaction the block admits: 32 bits wide, aligned, mapped (R42, R44). -/
def admitted (pbufSize width off : Nat) : Option Target :=
  if width = 32 then windowTarget pbufSize off else none

/-- What a host read of a register returns (R43): its value, and 0 for the write-only `CMD` and
`KEY_IN`. -/
def readReg (s : State) : Reg → Word
  | .cmd => 0
  | .status => s.status
  | .errcode => s.errcode
  | .pktLen => s.pktLen
  | .ctrOff => s.ctrOff
  | .ctrLen => s.ctrLen
  | .route => s.route
  | .keyIn _ => 0
  | .blkIn j => groupWord s.blkIn j
  | .blkOut j => groupWord s.blkOut j
  | .nonce j => groupWord s.nonce j
  | .hdrTo => s.hdrTo
  | .hdrFrom => s.hdrFrom
  | .hdrId => s.hdrId
  | .hdrMisc => s.hdrMisc

/-- What a host write stores in a register (R43): all 32 bits of a read-write register and of
`KEY_IN`, nothing in a read-only one. `CMD` holds no value (R20); its write runs a command
(`hostWrite`) and stores nothing. -/
def writeReg (s : State) (r : Reg) (v : Word) : State :=
  match r with
  | .cmd => s
  | .status => s
  | .errcode => s
  | .pktLen => { s with pktLen := v }
  | .ctrOff => { s with ctrOff := v }
  | .ctrLen => { s with ctrLen := v }
  | .route => s
  | .keyIn j => { s with keyIn := setGroupWord s.keyIn j v }
  | .blkIn j => { s with blkIn := setGroupWord s.blkIn j v }
  | .blkOut _ => s
  | .nonce j => { s with nonce := setGroupWord s.nonce j v }
  | .hdrTo => { s with hdrTo := v }
  | .hdrFrom => { s with hdrFrom := v }
  | .hdrId => { s with hdrId := v }
  | .hdrMisc => { s with hdrMisc := v }

/-- Word `w` of the PBUF window: `LE32(PBUF[4w], …, PBUF[4w+3])` (R43). -/
def pbufWord (m : Memory) (w : Nat) : Word :=
  le32 (m.read (4 * w)) (m.read (4 * w + 1)) (m.read (4 * w + 2)) (m.read (4 * w + 3))

/-- Write word `w` of the PBUF window: `PBUF[4w+k] <- v[8k+7:8k]` (R43). -/
def setPbufWord (m : Memory) (w : Nat) (v : Word) : Memory :=
  writeBytes m (4 * w) [byteOf v 0, byteOf v 1, byteOf v 2, byteOf v 3]

/-- What a host read of a mapped target returns (R43). -/
def readTarget (s : State) : Target → Word
  | .reg r => readReg s r
  | .pbufWord w => pbufWord s.pbuf w

/-- What a host write of a mapped target stores (R43). -/
def writeTarget (s : State) (t : Target) (v : Word) : State :=
  match t with
  | .reg r => writeReg s r v
  | .pbufWord w => { s with pbuf := setPbufWord s.pbuf w v }

end Sys2Proof.Machine
end

