-- ==== Sys2Proof/Machine/Aes.lean ====
section
/-! DEFINITION. The AES-128 key schedule and forward transform as functions on byte arrays
(`40_block_cipher.md` rules R80 to R91). The constants are the ones those rules give. There is no
inverse transform (R91). -/

namespace Sys2Proof.Machine

/-! ## Arithmetic in GF(2^8) (R80) -/

/-- Multiply by x modulo `0x11B` (R80). -/
def xtime (b : Byte) : Byte := (b <<< 1) ^^^ (if b.getLsbD 7 then 0x1B else 0x00)

/-- `xtime` applied j times. -/
def xtimes (a : Byte) : Nat → Byte
  | 0 => a
  | j + 1 => xtime (xtimes a j)

/-- The XOR of `xtime^j(a)` over the bits j < n with `b[j] = 1`. -/
def gmulBits (a b : Byte) : Nat → Byte
  | 0 => 0
  | n + 1 => gmulBits a b n ^^^ (if b.getLsbD n then xtimes a n else 0)

/-- `gmul(a, b)`: multiplication in GF(2^8) (R80). -/
def gmul (a b : Byte) : Byte := gmulBits a b 8

/-! ## The S-box (R81, R82) -/

/-- Row 0 of the table of R82. -/
def sboxRow0 : List Byte := [0x63, 0x7c, 0x77, 0x7b, 0xf2, 0x6b, 0x6f, 0xc5, 0x30, 0x01, 0x67, 0x2b, 0xfe, 0xd7, 0xab, 0x76]

/-- Row 1 of the table of R82. -/
def sboxRow1 : List Byte := [0xca, 0x82, 0xc9, 0x7d, 0xfa, 0x59, 0x47, 0xf0, 0xad, 0xd4, 0xa2, 0xaf, 0x9c, 0xa4, 0x72, 0xc0]

/-- Row 2 of the table of R82. -/
def sboxRow2 : List Byte := [0xb7, 0xfd, 0x93, 0x26, 0x36, 0x3f, 0xf7, 0xcc, 0x34, 0xa5, 0xe5, 0xf1, 0x71, 0xd8, 0x31, 0x15]

/-- Row 3 of the table of R82. -/
def sboxRow3 : List Byte := [0x04, 0xc7, 0x23, 0xc3, 0x18, 0x96, 0x05, 0x9a, 0x07, 0x12, 0x80, 0xe2, 0xeb, 0x27, 0xb2, 0x75]

/-- Row 4 of the table of R82. -/
def sboxRow4 : List Byte := [0x09, 0x83, 0x2c, 0x1a, 0x1b, 0x6e, 0x5a, 0xa0, 0x52, 0x3b, 0xd6, 0xb3, 0x29, 0xe3, 0x2f, 0x84]

/-- Row 5 of the table of R82. -/
def sboxRow5 : List Byte := [0x53, 0xd1, 0x00, 0xed, 0x20, 0xfc, 0xb1, 0x5b, 0x6a, 0xcb, 0xbe, 0x39, 0x4a, 0x4c, 0x58, 0xcf]

/-- Row 6 of the table of R82. -/
def sboxRow6 : List Byte := [0xd0, 0xef, 0xaa, 0xfb, 0x43, 0x4d, 0x33, 0x85, 0x45, 0xf9, 0x02, 0x7f, 0x50, 0x3c, 0x9f, 0xa8]

/-- Row 7 of the table of R82. -/
def sboxRow7 : List Byte := [0x51, 0xa3, 0x40, 0x8f, 0x92, 0x9d, 0x38, 0xf5, 0xbc, 0xb6, 0xda, 0x21, 0x10, 0xff, 0xf3, 0xd2]

/-- Row 8 of the table of R82. -/
def sboxRow8 : List Byte := [0xcd, 0x0c, 0x13, 0xec, 0x5f, 0x97, 0x44, 0x17, 0xc4, 0xa7, 0x7e, 0x3d, 0x64, 0x5d, 0x19, 0x73]

/-- Row 9 of the table of R82. -/
def sboxRow9 : List Byte := [0x60, 0x81, 0x4f, 0xdc, 0x22, 0x2a, 0x90, 0x88, 0x46, 0xee, 0xb8, 0x14, 0xde, 0x5e, 0x0b, 0xdb]

/-- Row a of the table of R82. -/
def sboxRowA : List Byte := [0xe0, 0x32, 0x3a, 0x0a, 0x49, 0x06, 0x24, 0x5c, 0xc2, 0xd3, 0xac, 0x62, 0x91, 0x95, 0xe4, 0x79]

/-- Row b of the table of R82. -/
def sboxRowB : List Byte := [0xe7, 0xc8, 0x37, 0x6d, 0x8d, 0xd5, 0x4e, 0xa9, 0x6c, 0x56, 0xf4, 0xea, 0x65, 0x7a, 0xae, 0x08]

/-- Row c of the table of R82. -/
def sboxRowC : List Byte := [0xba, 0x78, 0x25, 0x2e, 0x1c, 0xa6, 0xb4, 0xc6, 0xe8, 0xdd, 0x74, 0x1f, 0x4b, 0xbd, 0x8b, 0x8a]

/-- Row d of the table of R82. -/
def sboxRowD : List Byte := [0x70, 0x3e, 0xb5, 0x66, 0x48, 0x03, 0xf6, 0x0e, 0x61, 0x35, 0x57, 0xb9, 0x86, 0xc1, 0x1d, 0x9e]

/-- Row e of the table of R82. -/
def sboxRowE : List Byte := [0xe1, 0xf8, 0x98, 0x11, 0x69, 0xd9, 0x8e, 0x94, 0x9b, 0x1e, 0x87, 0xe9, 0xce, 0x55, 0x28, 0xdf]

/-- Row f of the table of R82. -/
def sboxRowF : List Byte := [0x8c, 0xa1, 0x89, 0x0d, 0xbf, 0xe6, 0x42, 0x68, 0x41, 0x99, 0x2d, 0x0f, 0xb0, 0x54, 0xbb, 0x16]

/-- The S-box as a flat list, index 0 first (R82). -/
def sboxTable : List Byte :=
  sboxRow0 ++ sboxRow1 ++ sboxRow2 ++ sboxRow3 ++ sboxRow4 ++ sboxRow5 ++ sboxRow6 ++ sboxRow7 ++
  sboxRow8 ++ sboxRow9 ++ sboxRowA ++ sboxRowB ++ sboxRowC ++ sboxRowD ++ sboxRowE ++ sboxRowF

/-- `SBOX[a]` (R82). -/
def sbox (a : Byte) : Byte := sboxTable.getD a.toNat 0

/-- `inv(a)`: 0 for 0, else the y with `gmul(a, y) = 1` (R81). -/
def gfInv (a : Byte) : Byte :=
  if a = 0 then 0
  else ((List.range 256).map (BitVec.ofNat 8)).find? (fun y => gmul a y == 1) |>.getD 0

/-- The affine map of the S-box: `y ^ rotl8(y,1) ^ rotl8(y,2) ^ rotl8(y,3) ^ rotl8(y,4) ^ 0x63`
(R81). -/
def sboxAffine (y : Byte) : Byte :=
  y ^^^ y.rotateLeft 1 ^^^ y.rotateLeft 2 ^^^ y.rotateLeft 3 ^^^ y.rotateLeft 4 ^^^ 0x63

/-! ## The key schedule (R83 to R85) -/

/-- `RC[j]` for j = 1..10: `RC[1] = 0x01`, `RC[j+1] = xtime(RC[j])` (R83). Index 0 is not used. -/
def rc : Nat → Byte
  | 0 => 0
  | 1 => 0x01
  | j + 2 => xtime (rc (j + 1))

/-- `Rcon[j] = (RC[j], 0, 0, 0)` (R83). -/
def rcon (j : Nat) : Quad := #v[rc j, 0, 0, 0]

/-- `RotWord`: one byte towards index 0 (R84). -/
def rotWord (w : Quad) : Quad := #v[w[1], w[2], w[3], w[0]]

/-- `SubWord`: the S-box on each byte (R84). -/
def subWord (w : Quad) : Quad := #v[sbox w[0], sbox w[1], sbox w[2], sbox w[3]]

/-- `^` on schedule words, byte by byte (R85). -/
def xorQuad (a b : Quad) : Quad := #v[a[0] ^^^ b[0], a[1] ^^^ b[1], a[2] ^^^ b[2], a[3] ^^^ b[3]]

/-- Bytes `4c..4c+3` of a flat array: schedule word `c` of a round key, column `c` of the state
(R69, R70). -/
def quadOf (s : Block) (c : Fin 4) : Quad :=
  #v[s[4 * c.val], s[4 * c.val + 1], s[4 * c.val + 2], s[4 * c.val + 3]]

/-- `w0 ‖ w1 ‖ w2 ‖ w3` (R70). -/
def ofQuads (w0 w1 w2 w3 : Quad) : Block :=
  #v[w0[0], w0[1], w0[2], w0[3], w1[0], w1[1], w1[2], w1[3],
     w2[0], w2[1], w2[2], w2[3], w3[0], w3[1], w3[2], w3[3]]

/-- Round key `j` from round key `j - 1`: four turns of the loop of R85. The first word goes through
RotWord, SubWord and Rcon; each word is XORed with the word four positions back. -/
def nextRoundKey (k : Block) (j : Nat) : Block :=
  let w0 := xorQuad (quadOf k 0) (xorQuad (subWord (rotWord (quadOf k 3))) (rcon j))
  let w1 := xorQuad (quadOf k 1) w0
  let w2 := xorQuad (quadOf k 2) w1
  let w3 := xorQuad (quadOf k 3) w2
  ofQuads w0 w1 w2 w3

/-- Round key `r` of a key; round key 0 is the raw key (R85). -/
def roundKey (k : Block) : Nat → Block
  | 0 => k
  | r + 1 => nextRoundKey (roundKey k r) (r + 1)

/-- `KeyExpansion(K)`: the eleven round keys (R85). -/
def keyExpansion (k : Block) : RoundKeys := Vector.ofFn fun r : Fin 11 => roundKey k r.val

/-! ## The round operations (R86 to R89) -/

/-- `AddRoundKey(s, k)` (R86). -/
def addRoundKey (s k : Block) : Block := Vector.ofFn fun n : Fin 16 => s[n] ^^^ k[n]

/-- `SubBytes(s)` (R87). -/
def subBytes (s : Block) : Block := Vector.ofFn fun n : Fin 16 => sbox s[n]

/-- `ShiftRows(s)`: `out[n] = s[(n mod 4) + 4*(((n div 4) + (n mod 4)) mod 4)]` (R88). -/
def shiftRows (s : Block) : Block :=
  Vector.ofFn fun n : Fin 16 => s[n.val % 4 + 4 * ((n.val / 4 + n.val % 4) % 4)]

/-- One column of `MixColumns` (R89). -/
def mixColumn (a : Quad) : Quad :=
  #v[gmul a[0] 2 ^^^ gmul a[1] 3 ^^^ a[2] ^^^ a[3],
     a[0] ^^^ gmul a[1] 2 ^^^ gmul a[2] 3 ^^^ a[3],
     a[0] ^^^ a[1] ^^^ gmul a[2] 2 ^^^ gmul a[3] 3,
     gmul a[0] 3 ^^^ a[1] ^^^ a[2] ^^^ gmul a[3] 2]

/-- `MixColumns(s)` (R89). -/
def mixColumns (s : Block) : Block :=
  ofQuads (mixColumn (quadOf s 0)) (mixColumn (quadOf s 1)) (mixColumn (quadOf s 2))
    (mixColumn (quadOf s 3))

/-! ## The forward transform (R90) -/

/-- One of the nine full rounds (R90). -/
def fullRound (s k : Block) : Block := addRoundKey (mixColumns (shiftRows (subBytes s))) k

/-- The final round, which has no MixColumns (R90). -/
def finalRound (s k : Block) : Block := addRoundKey (shiftRows (subBytes s)) k

/-- `Cipher(RK, in)` (R90). -/
def cipher (rk : RoundKeys) (x : Block) : Block :=
  finalRound
    ([rk[1], rk[2], rk[3], rk[4], rk[5], rk[6], rk[7], rk[8], rk[9]].foldl fullRound
      (addRoundKey x rk[0]))
    rk[10]

end Sys2Proof.Machine
end

