-- ==== Sys2Proof/Machine/BlockCipher.lean ====
section
/-! DEFINITION. The commands of the Block Cipher Core: SETKEY and ENCBLK
(`40_block_cipher.md` rules R92 and R93). -/

namespace Sys2Proof.Machine

/-- SETKEY (R92): copy `KEY_IN` to `KEY`, expand it into `RK`, set `KEY_VALID`. It cannot fail. -/
def execSetkey (s : State) : Host.Outcome State Fault Refusal :=
  .next (succeed
    { s with key := s.keyIn, rk := keyExpansion s.keyIn, status := setKeyValid s.status })

/-- ENCBLK (R93): `BLK_OUT <- Cipher(RK, BLK_IN)`; without a key, `ERR_NO_KEY` (R143). -/
def execEncblk (s : State) : Host.Outcome State Fault Refusal :=
  if statusKeyValid s.status then .next (succeed { s with blkOut := cipher s.rk s.blkIn })
  else .next (raiseError .noKey s)

end Sys2Proof.Machine
end

