-- ==== Sys2Proof/Machine/CtrEngine.lean ====
section
/-! DEFINITION. The CTR Keystream Engine: the CTR transform and the command CTRXOR
(`41_ctr_engine.md` rules R110 to R117). There is one transform for both directions (R115). -/

namespace Sys2Proof.Machine

/-- `CounterBlock(N, i) = N[0..11] ‖ BE32bytes(i)`; bytes 12..15 of the nonce are replaced (R110,
C2). -/
def counterBlock (n : Block) (i : Word) : Block :=
  #v[n[0], n[1], n[2], n[3], n[4], n[5], n[6], n[7], n[8], n[9], n[10], n[11],
     (be32Bytes i)[0], (be32Bytes i)[1], (be32Bytes i)[2], (be32Bytes i)[3]]

/-- The keystream block of block index i (R111). -/
def keystreamBlock (rk : RoundKeys) (n : Block) (i : Word) : Block := cipher rk (counterBlock n i)

/-- The keystream byte at position p of the range: byte `p mod 16` of block `p div 16` (R111). -/
def keystreamByte (rk : RoundKeys) (n : Block) (p : Nat) : Byte :=
  (keystreamBlock rk n (BitVec.ofNat 32 (p / 16)))[p % 16]

/-- XOR a byte array with the keystream from position p on (R111). -/
def ctrXorFrom (rk : RoundKeys) (n : Block) (p : Nat) : List Byte → List Byte
  | [] => []
  | d :: ds => (d ^^^ keystreamByte rk n p) :: ctrXorFrom rk n (p + 1) ds

/-- `CtrXor(RK, N, D)` (R111). It is specified for at most 2^36 bytes and refuses more (R113). -/
def ctrXor (rk : RoundKeys) (n : Block) (d : List Byte) : Option (List Byte) :=
  if d.length ≤ 2 ^ 36 then some (ctrXorFrom rk n 0 d) else none

/-- CTRXOR (R114): the CTR transform in place on `PBUF[CTR_OFF .. CTR_OFF+CTR_LEN-1]`. The checks, in
the order of R147: `ERR_NO_KEY`, then `ERR_RANGE` on the unwrapped sum. -/
def execCtrxor (s : State) : Host.Outcome State Fault Refusal :=
  if statusKeyValid s.status = false then .next (raiseError .noKey s)
  else if s.ctrOff.toNat + s.ctrLen.toNat > s.cfg.pbufSize then .next (raiseError .range s)
  else
    match memRead s s.ctrOff.toNat s.ctrLen.toNat with
    | none => .fault .engineOutsidePbuf
    | some d =>
      match ctrXor s.rk s.nonce d with
      | none => .refused .ctrInputTooLong
      | some out =>
        match memWrite s s.ctrOff.toNat out with
        | none => .fault .engineOutsidePbuf
        | some t => .next (succeed t)

end Sys2Proof.Machine
end

