-- ==== Sys2Proof/Machine/HeaderParser.lean ====
section
/-! DEFINITION. The packet header parser: PARSEHDR, BUILDNONCE and CALCROUTE
(`42_header_parser.md` rules R120 to R128). -/

namespace Sys2Proof.Machine

/-- The seven fields of the packet header (`30_encoding.md` rule R65). -/
structure Header where
  toAddress : Word
  fromAddress : Word
  packetId : Word
  flags : Byte
  channel : Byte
  nextHop : Byte
  relayNode : Byte
  deriving DecidableEq, Repr

/-- `ParseHeader(B)` (R120): fails on fewer than 16 bytes, ignores the bytes beyond. -/
def parseHeader : List Byte → Option Header
  | b0 :: b1 :: b2 :: b3 :: b4 :: b5 :: b6 :: b7 :: b8 :: b9 :: b10 :: b11 :: b12 :: b13 :: b14 ::
      b15 :: _ =>
    some {
      toAddress := le32 b0 b1 b2 b3
      fromAddress := le32 b4 b5 b6 b7
      packetId := le32 b8 b9 b10 b11
      flags := b12
      channel := b13
      nextHop := b14
      relayNode := b15 }
  | _ => none

/-- `HDR_MISC` of a header: `flags | channel<<8 | next_hop<<16 | relay_node<<24` (R15, R124). -/
def headerMisc (h : Header) : Word := le32 h.flags h.channel h.nextHop h.relayNode

/-- `BuildNonce(packet_id, from_address)` (R121):
`LE32bytes(packet_id) ‖ 00 00 00 00 ‖ LE32bytes(from_address) ‖ 00 00 00 00`. -/
def buildNonce (packetId fromAddress : Word) : Block :=
  let p := le32Bytes packetId
  let f := le32Bytes fromAddress
  #v[p[0], p[1], p[2], p[3], 0, 0, 0, 0, f[0], f[1], f[2], f[3], 0, 0, 0, 0]

/-- PARSEHDR (R124): the header words of PBUF into `HDR_*`, and the payload's range into `CTR_OFF`
and `CTR_LEN`. The checks, in the order of R147: `ERR_RANGE`, then `ERR_SHORT_HEADER`. -/
def execParsehdr (s : State) : Host.Outcome State Fault Refusal :=
  if s.pktLen.toNat > s.cfg.pbufSize then .next (raiseError .range s)
  else if s.pktLen.toNat < 16 then .next (raiseError .shortHeader s)
  else
    match memRead32 s 0, memRead32 s 4, memRead32 s 8, memRead32 s 12 with
    | some w0, some w1, some w2, some w3 =>
      .next (succeed
        { s with
          hdrTo := w0
          hdrFrom := w1
          hdrId := w2
          hdrMisc := w3
          ctrOff := 16
          ctrLen := s.pktLen - 16 })
    | _, _, _, _ => .fault .engineOutsidePbuf

/-- BUILDNONCE (R125): `NONCE <- BuildNonce(HDR_ID, HDR_FROM)`. It cannot fail. -/
def execBuildnonce (s : State) : Host.Outcome State Fault Refusal :=
  .next (succeed { s with nonce := buildNonce s.hdrId s.hdrFrom })

/-- CALCROUTE (R126): `ROUTE` from `HDR_MISC[7:0]` and `HDR_TO`. It cannot fail; an underflow is
flagged in `ROUTE.SKIP_UF`. -/
def execCalcroute (s : State) : Host.Outcome State Fault Refusal :=
  .next (succeed { s with route := packRoute (calcRouting (byteOf s.hdrMisc 0) s.hdrTo) })

end Sys2Proof.Machine
end

