-- ==== Sys2Proof/Machine/Dispatch.lean ====
section
/-! DEFINITION. One arm per command (`30_encoding.md` rule R61). -/

namespace Sys2Proof.Machine

def exec (i : Instr) (s : State) : Host.Outcome State Fault Refusal :=
  match i with
  -- Block Cipher Core
  | .setkey => Sys2Proof.Machine.execSetkey s
  | .encblk => Sys2Proof.Machine.execEncblk s
  -- CTR Keystream Engine
  | .ctrxor => Sys2Proof.Machine.execCtrxor s
  -- Packet Framer
  | .parsehdr => Sys2Proof.Machine.execParsehdr s
  | .buildnonce => Sys2Proof.Machine.execBuildnonce s
  | .calcroute => Sys2Proof.Machine.execCalcroute s

end Sys2Proof.Machine
end

