-- ==== Sys2Proof/Machine/HostPort.lean ====
section
/-! DEFINITION. The host port: what one host event does to the block (`20_memory.md` rules R42 to
R44 and R51, `60_exceptions.md` rules R144 and R146, `70_reset_and_hazards.md` rule R160). -/

namespace Sys2Proof.Machine

/-- A word written to `CMD`: decoded and executed at once (R20, R60); a word that is no command
raises `ERR_ILLEGAL_CMD` (R62, R144). -/
def runCommand (v : Word) (s : State) : Host.Outcome State Fault Refusal :=
  match decode v with
  | .ok i => exec i s
  | .error _ => .next (raiseError .illegalCmd s)

/-- A refused transaction (R44, R146): no cell of the block changes, the port answers `BusError`. -/
def refuseTransaction (s : State) : State := respond .busError s

/-- `HostRead(off)` of a given width (R42, R43): a mapped target answers its word and nothing
changes. -/
def hostRead (width off : Nat) (s : State) : Host.Outcome State Fault Refusal :=
  match admitted s.cfg.pbufSize width off with
  | none => .next (refuseTransaction s)
  | some t => .next (respond (.data (readTarget s t)) s)

/-- `HostWrite(off, v)` of a given width (R42, R43): a write to `CMD` runs the whole command inside
this step (R51), every other mapped target stores the word or ignores it. -/
def hostWrite (width off : Nat) (v : Word) (s : State) : Host.Outcome State Fault Refusal :=
  match admitted s.cfg.pbufSize width off with
  | none => .next (refuseTransaction s)
  | some (.reg .cmd) => runCommand v (respond .accepted s)
  | some t => .next (writeTarget (respond .accepted s) t v)

/-- One host event (R6, R51, R160). -/
def hostEvent (e : HostEvent) (s : State) : Host.Outcome State Fault Refusal :=
  match e with
  | .read width off => hostRead width off s
  | .write width off v => hostWrite width off v s
  | .reset draw => .next (resetEvent draw s)

/-- Take the host's next event, if there is one. Where the host issues nothing, nothing changes
(R6: only a reset or a host write changes the state). -/
def hostStep (s : State) : Host.Outcome State Fault Refusal :=
  match s.inputs with
  | [] => .next s
  | e :: rest => hostEvent e (withInputs rest s)

/-- Put the write of a command word to `CMD` in front of the events to come (R72's `CMD` line), with
the opcode table's numbering of bits. -/
def placeCommand (nbits w : Nat) (s : State) : State :=
  withInputs (.write 32 0x000 (BitVec.ofNat 32 (w % 2 ^ nbits)) :: s.inputs) s

end Sys2Proof.Machine
end

