-- ==== Sys2Proof/Machine/Step.lean ====
section
/-! DEFINITION. One step of the machine: one host event, taken whole (`00_scope.md` rule R6,
`20_memory.md` rule R51). The block fetches no instructions (`10_state.md` rule R16): a command is
the value of a host write to `CMD`. -/

namespace Sys2Proof.Machine

/-- One step (R6): the next host event is taken and has its whole effect. -/
def step (s : State) : Host.Outcome State Fault Refusal := hostStep s

/-- The state whose next step runs the command word whose bits are `w`: the host's next event is the
write of that word to `CMD` (log entry 7). Nothing else changes. -/
def State.withFetchWord (s : State) (nbits w : Nat) : State := placeCommand nbits w s

end Sys2Proof.Machine
end

