-- ==== Sys2Proof/Safety.lean ====
section
/-! DEFINITION. The terms the statements use: the result record a command leaves, the register map as
rows, and the parts of the block's invariant, each from the rule that gives it. -/

namespace Sys2Proof.Machine

/-! ## The result record -/

/-- `s` with the record of a successful command: `STATUS.OK <- 1`, `ERRCODE <- 0` (R154). -/
def State.recordedOk (s : State) : State :=
  { s with status := s.status ||| 0x00000002, errcode := 0 }

/-- `s` with the record of a failed command and nothing else changed: `STATUS.OK <- 0`,
`ERRCODE <- code` (R148). -/
def State.recordedError (s : State) (code : Word) : State :=
  { s with status := s.status &&& 0xFFFFFFFD, errcode := code }

/-! ## The register map -/

/-- A readable register of the map: its offset, the word it holds, and the state after a word is
stored in it. -/
structure RegisterRow where
  offset : Nat
  value : State → Word
  store : State → Word → State

/-- The read-write registers of R41. -/
def readWriteRegisters : List RegisterRow :=
  [ { offset := 0x00C, value := (·.pktLen), store := fun s v => { s with pktLen := v } },
    { offset := 0x010, value := (·.ctrOff), store := fun s v => { s with ctrOff := v } },
    { offset := 0x014, value := (·.ctrLen), store := fun s v => { s with ctrLen := v } },
    { offset := 0x060, value := (·.hdrTo), store := fun s v => { s with hdrTo := v } },
    { offset := 0x064, value := (·.hdrFrom), store := fun s v => { s with hdrFrom := v } },
    { offset := 0x068, value := (·.hdrId), store := fun s v => { s with hdrId := v } },
    { offset := 0x06C, value := (·.hdrMisc), store := fun s v => { s with hdrMisc := v } } ] ++
  (List.finRange 4).map (fun j =>
    { offset := 0x030 + 4 * j.val, value := fun s => groupWord s.blkIn j,
      store := fun s v => { s with blkIn := setGroupWord s.blkIn j v } }) ++
  (List.finRange 4).map (fun j =>
    { offset := 0x050 + 4 * j.val, value := fun s => groupWord s.nonce j,
      store := fun s v => { s with nonce := setGroupWord s.nonce j v } })

/-- The read-only registers of R41: a write of one is ignored (R43). -/
def readOnlyRegisters : List RegisterRow :=
  [ { offset := 0x004, value := (·.status), store := fun s _ => s },
    { offset := 0x008, value := (·.errcode), store := fun s _ => s },
    { offset := 0x018, value := (·.route), store := fun s _ => s } ] ++
  (List.finRange 4).map (fun j =>
    { offset := 0x040 + 4 * j.val, value := fun s => groupWord s.blkOut j,
      store := fun s _ => s })

/-! ## The invariant -/

/-- The parameters meet R5's constraints. -/
abbrev State.ParametersValid (s : State) : Prop := s.cfg.Valid

/-- PBUF is in its canonical form and lists only bytes `0..PBUF_SIZE-1` (R25, R40). -/
abbrev State.BufferOk (s : State) : Prop := s.pbuf.wf ∧ ∀ c ∈ s.pbuf, c.1 < s.cfg.pbufSize

/-- `STATUS[31:2]` reads as 0 (R17). -/
abbrev State.StatusReservedZero (s : State) : Prop := s.status &&& 0xFFFFFFFC = 0

/-- `ERRCODE` holds one of the codes 0 to 4; 5 to 255 are never produced and bits 31:8 read as 0
(R18, R141). -/
abbrev State.ErrcodeLegal (s : State) : Prop := s.errcode.toNat ≤ 4

/-- Where `OK` is set the error code is `ERR_NONE` (R18, R154). -/
abbrev State.RecordConsistent (s : State) : Prop := s.status.getLsbD 1 = true → s.errcode = 0

/-- `ROUTE[3]`, `[7]`, `[15:10]` and `[31:24]` read as 0 (R19). -/
abbrev State.RouteReservedZero (s : State) : Prop := s.route &&& 0xFF00FC88 = 0

/-- `SKIP_COUNT` and `SKIP_UF` are those of the two hop fields beside them (R19, R123). -/
abbrev State.RouteConsistent (s : State) : Prop :=
  ((s.route.extractLsb' 16 8).toNat + (s.route.extractLsb' 0 3).toNat) % 256 =
      (s.route.extractLsb' 4 3).toNat ∧
    s.route.getLsbD 9 =
      decide ((s.route.extractLsb' 4 3).toNat < (s.route.extractLsb' 0 3).toNat)

/-- Whenever `KEY_VALID = 1`, `RK = KeyExpansion(KEY)` (R24). -/
abbrev State.KeyStoreOk (s : State) : Prop :=
  s.status.getLsbD 0 = true → s.rk = keyExpansion s.key

/-- The invariant of the block. -/
abbrev State.Inv (s : State) : Prop :=
  s.ParametersValid ∧ s.BufferOk ∧ s.StatusReservedZero ∧ s.ErrcodeLegal ∧ s.RecordConsistent ∧
    s.RouteReservedZero ∧ s.RouteConsistent ∧ s.KeyStoreOk

end Sys2Proof.Machine
end

