-- ==== Sys2Proof/Certificates/Slice0/Obligations.lean ====
section
/-! DEFINITION. The statements for the provers. Each docstring names the rule it formalises. A state's
fields `cfg`, `inputs` and `response` are the model's own (log entries 1, 5 and 6); where a statement
says a field of the block is unchanged it says so of these as well, but for the event taken from
`inputs` and the port's answer. -/

open Sys2Proof Sys2Proof.Machine

/-! ## Encoding -/

/-- R61: a word selects the row of a command exactly when the word under the row's mask is the row's
word. -/
def Obligations.WordsSelectTheirRows : Prop :=
  ∀ v : Word,
    (decode v = .ok .setkey ↔ v &&& 0xFFFFFFFF#32 = 0x00000001#32) ∧
    (decode v = .ok .encblk ↔ v &&& 0xFFFFFFFF#32 = 0x00000002#32) ∧
    (decode v = .ok .ctrxor ↔ v &&& 0xFFFFFFFF#32 = 0x00000003#32) ∧
    (decode v = .ok .parsehdr ↔ v &&& 0xFFFFFFFF#32 = 0x00000004#32) ∧
    (decode v = .ok .buildnonce ↔ v &&& 0xFFFFFFFF#32 = 0x00000005#32) ∧
    (decode v = .ok .calcroute ↔ v &&& 0xFFFFFFFF#32 = 0x00000006#32)

/-- A word of each of the three units, written out bit by bit from R60 and R61, decodes to its
command. -/
def Obligations.WrittenOutWordsDecode : Prop :=
  decode 0b00000000000000000000000000000001#32 = .ok .setkey ∧
  decode 0b00000000000000000000000000000011#32 = .ok .ctrxor ∧
  decode 0b00000000000000000000000000000110#32 = .ok .calcroute

/-- Decoder and encoder agree on every word and every command, in both directions. -/
def Obligations.DecodeInvertsEncode : Prop :=
  ∀ (v : Word) (i : Instr), decode v = .ok i ↔ encode i = v

/-- R62 and R63: a word is illegal exactly when bits 31:8 are not 0, the opcode is `0x00`, or it lies
in `0x07..0xFF`; writing it to `CMD` raises `ERR_ILLEGAL_CMD` (3) and changes nothing else. -/
def Obligations.IllegalWordsRaiseIllegalCommand : Prop :=
  ∀ v : Word,
    (decode v = .error (.illegalCommand v) ↔
      v.extractLsb' 8 24 ≠ 0 ∨ v.extractLsb' 0 8 = 0 ∨ 7 ≤ (v.extractLsb' 0 8).toNat) ∧
    (v.extractLsb' 8 24 ≠ 0 ∨ v.extractLsb' 0 8 = 0 ∨ 7 ≤ (v.extractLsb' 0 8).toNat →
      ∀ (s : State) (q : List HostEvent),
        step { s with inputs := .write 32 0x000 v :: q } =
          .next (State.recordedError { s with inputs := q, response := .accepted } 3))

/-- A step whose host event is the write of a command word to `CMD` is `exec` of the decoded command,
with the event taken and the port's answer `accepted`. -/
def Obligations.StepRunsTheDecodedCommand : Prop :=
  ∀ (s : State) (q : List HostEvent) (v : Word) (i : Instr),
    s.inputs = .write 32 0x000 v :: q → decode v = .ok i →
      step s = exec i { s with inputs := q, response := .accepted }

/-- The word `withFetchWord` places is the one the very next step runs, in every state (log entry 7,
the model's own). -/
def Obligations.PlacedWordRunsNext : Prop :=
  ∀ (s : State) (i : Instr),
    step (s.withFetchWord 32 (encode i).toNat) = exec i { s with response := .accepted }

/-! ## The Block Cipher Core -/

/-- R92, SETKEY: `KEY` and all of `RK` from `KEY_IN`, `KEY_VALID` set, success; nothing else
changes, and it cannot fail. -/
def Obligations.SetkeyLoadsAndExpandsTheKey : Prop :=
  decode 0x00000001#32 = .ok .setkey ∧
  ∀ s : State,
    exec .setkey s = .next (State.recordedOk
      { s with
        key := s.keyIn
        rk := keyExpansion s.keyIn
        status := s.status ||| 0x00000001#32 })

/-- R93, ENCBLK: with a key, `BLK_OUT <- Cipher(RK, BLK_IN)` and success; without, `ERR_NO_KEY` (2);
nothing else changes. -/
def Obligations.EncblkEncryptsTheBlock : Prop :=
  decode 0x00000002#32 = .ok .encblk ∧
  ∀ s : State,
    (s.status.getLsbD 0 = true →
      exec .encblk s = .next (State.recordedOk { s with blkOut := cipher s.rk s.blkIn })) ∧
    (s.status.getLsbD 0 = false → exec .encblk s = .next (s.recordedError 2))

/-- R80: `xtime`, `gmul` as the XOR of `xtime^j(a)` over the bits of `b`, and the laws the rule gives
for it. -/
def Obligations.FieldMultiplicationLaws : Prop :=
  ∀ a b c : Byte,
    xtime b = (if b.getLsbD 7 then (b <<< 1) ^^^ 0x1B#8 else b <<< 1) ∧
    gmul a b = (List.range 8).foldl
      (fun acc j => acc ^^^ (if b.getLsbD j then xtime^[j] a else 0)) 0 ∧
    gmul a 0x01 = a ∧ gmul a 0x02 = xtime a ∧ gmul a 0x03 = xtime a ^^^ a ∧ gmul a 0x00 = 0 ∧
    gmul a b = gmul b a ∧
    gmul (gmul a b) c = gmul a (gmul b c) ∧
    gmul a (b ^^^ c) = gmul a b ^^^ gmul a c

/-- R81: the S-box is the inverse in GF(2^8) followed by the affine map, bit by bit
`y[i] ^ y[(i+4) mod 8] ^ y[(i+5) mod 8] ^ y[(i+6) mod 8] ^ y[(i+7) mod 8] ^ c[i]` with `c = 0x63`,
and it is a permutation. -/
def Obligations.SboxIsInverseThenAffine : Prop :=
  (∀ a : Byte, ∃ y : Byte,
    (a = 0 → y = 0) ∧ (a ≠ 0 → gmul a y = 1 ∧ ∀ z : Byte, gmul a z = 1 → z = y) ∧
    sbox a = y ^^^ y.rotateLeft 1 ^^^ y.rotateLeft 2 ^^^ y.rotateLeft 3 ^^^ y.rotateLeft 4 ^^^ 0x63 ∧
    ∀ i : Fin 8, (sbox a).getLsbD i =
      (y.getLsbD i ^^ y.getLsbD ((i + 4) % 8) ^^ y.getLsbD ((i + 5) % 8) ^^
        y.getLsbD ((i + 6) % 8) ^^ y.getLsbD ((i + 7) % 8) ^^ (0x63#8).getLsbD i)) ∧
  ∀ a b : Byte, sbox a = sbox b → a = b

/-- R83 and R84: the ten round constants, their recurrence, and that only the first byte of a schedule
word is changed; RotWord and SubWord. -/
def Obligations.RoundConstantsAndWordOperations : Prop :=
  [rc 1, rc 2, rc 3, rc 4, rc 5, rc 6, rc 7, rc 8, rc 9, rc 10] =
    [0x01, 0x02, 0x04, 0x08, 0x10, 0x20, 0x40, 0x80, 0x1b, 0x36] ∧
  (∀ j, 1 ≤ j → rc (j + 1) = xtime (rc j)) ∧
  (∀ j, rcon j = #v[rc j, 0, 0, 0]) ∧
  ∀ a0 a1 a2 a3 : Byte,
    rotWord #v[a0, a1, a2, a3] = #v[a1, a2, a3, a0] ∧
    subWord #v[a0, a1, a2, a3] = #v[sbox a0, sbox a1, sbox a2, sbox a3]

/-- R85: the 44 schedule words of `KeyExpansion(K)`, word j being word `j mod 4` of round key
`j div 4`. -/
def Obligations.KeyScheduleRecurrence : Prop :=
  ∀ K : Block,
    (keyExpansion K)[0] = K ∧
    ∀ w : Nat → Quad,
      (∀ (r : Fin 11) (c : Fin 4), w (4 * r.val + c.val) = quadOf (keyExpansion K)[r] c) →
      (∀ j : Fin 4, w j.val = #v[K[4 * j.val], K[4 * j.val + 1], K[4 * j.val + 2], K[4 * j.val + 3]]) ∧
      ∀ j, 4 ≤ j → j ≤ 43 →
        w j = xorQuad (w (j - 4))
          (if j % 4 = 0 then xorQuad (subWord (rotWord (w (j - 1)))) (rcon (j / 4)) else w (j - 1))

/-- R86, R87, R88: AddRoundKey and SubBytes byte by byte, and ShiftRows in both of the rule's forms:
row r rotated left by r columns. -/
def Obligations.RoundOperationsByteByByte : Prop :=
  ∀ s k : Block,
    (∀ n : Fin 16, (addRoundKey s k)[n] = s[n] ^^^ k[n]) ∧
    (∀ n : Fin 16, (subBytes s)[n] = sbox s[n]) ∧
    (∀ n : Fin 16, (shiftRows s)[n] =
      s[n.val % 4 + 4 * ((n.val / 4 + n.val % 4) % 4)]) ∧
    ∀ r c : Fin 4, (shiftRows s)[r.val + 4 * c.val] = s[r.val + 4 * ((c.val + r.val) % 4)]

/-- R89: MixColumns, the four bytes of each column. -/
def Obligations.MixColumnsByColumns : Prop :=
  ∀ (s : Block) (c : Fin 4),
    (mixColumns s)[4 * c.val] =
      gmul s[4 * c.val] 2 ^^^ gmul s[4 * c.val + 1] 3 ^^^ s[4 * c.val + 2] ^^^ s[4 * c.val + 3] ∧
    (mixColumns s)[4 * c.val + 1] =
      s[4 * c.val] ^^^ gmul s[4 * c.val + 1] 2 ^^^ gmul s[4 * c.val + 2] 3 ^^^ s[4 * c.val + 3] ∧
    (mixColumns s)[4 * c.val + 2] =
      s[4 * c.val] ^^^ s[4 * c.val + 1] ^^^ gmul s[4 * c.val + 2] 2 ^^^ gmul s[4 * c.val + 3] 3 ∧
    (mixColumns s)[4 * c.val + 3] =
      gmul s[4 * c.val] 3 ^^^ s[4 * c.val + 1] ^^^ s[4 * c.val + 2] ^^^ gmul s[4 * c.val + 3] 2

/-- R90: the forward transform. For the states `st 0 .. st 9` of the rule's loop, `Cipher` is the final
round, which has no MixColumns, on `st 9`. -/
def Obligations.CipherRunsTheTenRounds : Prop :=
  ∀ (rk : RoundKeys) (x : Block) (st : Nat → Block),
    st 0 = addRoundKey x rk[0] →
    (∀ r : Fin 9, st (r.val + 1) =
      addRoundKey (mixColumns (shiftRows (subBytes (st r.val)))) rk[r.val + 1]) →
    cipher rk x = addRoundKey (shiftRows (subBytes (st 9))) rk[10]

/-! ## The CTR Keystream Engine -/

/-- R110: the counter block is the first twelve bytes of the nonce, then the block index, most
significant byte first. -/
def Obligations.CounterBlockReplacesTheTail : Prop :=
  ∀ (n : Block) (i : Word),
    (∀ k : Fin 12, (counterBlock n i)[k.val] = n[k.val]) ∧
    (counterBlock n i)[12] = i.extractLsb' 24 8 ∧ (counterBlock n i)[13] = i.extractLsb' 16 8 ∧
    (counterBlock n i)[14] = i.extractLsb' 8 8 ∧ (counterBlock n i)[15] = i.extractLsb' 0 8

/-- R111: `CtrXor` keeps the length, and byte p is `D[p] ^ KS_(p div 16)[p mod 16]`. -/
def Obligations.CtrXorByteByByte : Prop :=
  ∀ (rk : RoundKeys) (n : Block) (d : List Byte), d.length ≤ 2 ^ 36 →
    ∃ out, ctrXor rk n d = some out ∧ out.length = d.length ∧
      ∀ p x, d[p]? = some x →
        out[p]? = some (x ^^^
          (cipher rk (counterBlock n (BitVec.ofNat 32 (p / 16))))[p % 16])

/-- R112, its six properties: length, involution, initial part, keystream, nonce tail, no chaining. -/
def Obligations.CtrXorProperties : Prop :=
  ∀ (rk : RoundKeys) (n : Block) (d : List Byte), d.length ≤ 2 ^ 36 →
    ∃ out z, ctrXor rk n d = some out ∧
      out.length = d.length ∧
      ctrXor rk n out = some d ∧
      (∀ m, m ≤ d.length → ctrXor rk n (d.take m) = some (out.take m)) ∧
      (ctrXor rk n (List.replicate d.length 0) = some z ∧
        (∀ p, p < d.length →
          z[p]? = some (cipher rk (counterBlock n (BitVec.ofNat 32 (p / 16))))[p % 16]) ∧
        out = List.zipWith (· ^^^ ·) d z) ∧
      (∀ n' : Block, (∀ k : Fin 12, n'[k.val] = n[k.val]) → ctrXor rk n' d = some out) ∧
      (∀ p x y o, d[p]? = some x → out[p]? = some o →
        ctrXor rk n (d.set p y) = some (out.set p (o ^^^ x ^^^ y)))

/-- R113: `CtrXor` refuses more than 2^36 bytes, and no range inside PBUF reaches a block index above
`2^27 - 1`. -/
def Obligations.BlockIndexNeverWraps : Prop :=
  (∀ (rk : RoundKeys) (n : Block) (d : List Byte), 2 ^ 36 < d.length → ctrXor rk n d = none) ∧
  ∀ (s : State), s.cfg.Valid → s.ctrOff.toNat + s.ctrLen.toNat ≤ s.cfg.pbufSize →
    ∀ p, p < s.ctrLen.toNat → p / 16 ≤ 2 ^ 27 - 1

/-- R114, CTRXOR: no key gives `ERR_NO_KEY` (2); with a key, a range that does not fit (sum without
wrap) gives `ERR_RANGE` (4); otherwise every byte of the range is XORed with its keystream byte, every
other byte of PBUF and every register is unchanged, and the command succeeds. -/
def Obligations.CtrxorTransformsTheRange : Prop :=
  decode 0x00000003#32 = .ok .ctrxor ∧
  ∀ s : State,
    (s.status.getLsbD 0 = false → exec .ctrxor s = .next (s.recordedError 2)) ∧
    (s.status.getLsbD 0 = true → s.ctrOff.toNat + s.ctrLen.toNat > s.cfg.pbufSize →
      exec .ctrxor s = .next (s.recordedError 4)) ∧
    (s.status.getLsbD 0 = true → s.ctrOff.toNat + s.ctrLen.toNat ≤ s.cfg.pbufSize →
      ∃ m : Memory, exec .ctrxor s = .next (State.recordedOk { s with pbuf := m }) ∧
        (s.pbuf.wf → ∀ a, m.read a =
          if s.ctrOff.toNat ≤ a ∧ a < s.ctrOff.toNat + s.ctrLen.toNat then
            s.pbuf.read a ^^^
              (cipher s.rk (counterBlock s.nonce
                (BitVec.ofNat 32 ((a - s.ctrOff.toNat) / 16))))[(a - s.ctrOff.toNat) % 16]
          else s.pbuf.read a))

/-- R114 corner case (g) and R112 item 2 on the machine: issuing CTRXOR twice leaves every register and
every byte of PBUF as it was, but for the result record. -/
def Obligations.CtrxorTwiceRestoresTheBuffer : Prop :=
  ∀ s : State, s.status.getLsbD 0 = true →
    s.ctrOff.toNat + s.ctrLen.toNat ≤ s.cfg.pbufSize → s.pbuf.wf →
    ∃ t, exec .ctrxor s = .next t ∧ exec .ctrxor t = .next s.recordedOk

/-- R114 corner cases (a) and (b): with a key and an empty range inside PBUF (its offset may be
`PBUF_SIZE`), CTRXOR succeeds and changes nothing but the record. -/
def Obligations.CtrxorEmptyRangeSucceeds : Prop :=
  ∀ s : State, s.status.getLsbD 0 = true → s.ctrLen = 0 → s.ctrOff.toNat ≤ s.cfg.pbufSize →
    exec .ctrxor s = .next s.recordedOk

/-- R116: whatever `NONCE[12..15]` holds has no effect on CTRXOR. -/
def Obligations.CtrxorIgnoresTheNonceTail : Prop :=
  ∀ (s t : State) (n : Block), (∀ k : Fin 12, n[k.val] = s.nonce[k.val]) →
    exec .ctrxor s = .next t → exec .ctrxor { s with nonce := n } = .next { t with nonce := n }

/-! ## The packet header parser -/

/-- R120: `ParseHeader` fails on fewer than 16 bytes and otherwise reads the seven fields of the first
16, ignoring the rest. -/
def Obligations.ParseHeaderReadsSevenFields : Prop :=
  ∀ B : List Byte,
    (B.length < 16 → parseHeader B = none) ∧
    (16 ≤ B.length → parseHeader B = some
      { toAddress := le32 (B.getD 0 0) (B.getD 1 0) (B.getD 2 0) (B.getD 3 0)
        fromAddress := le32 (B.getD 4 0) (B.getD 5 0) (B.getD 6 0) (B.getD 7 0)
        packetId := le32 (B.getD 8 0) (B.getD 9 0) (B.getD 10 0) (B.getD 11 0)
        flags := B.getD 12 0
        channel := B.getD 13 0
        nextHop := B.getD 14 0
        relayNode := B.getD 15 0 })

/-- R124, PARSEHDR: `ERR_RANGE` (4), then `ERR_SHORT_HEADER` (1), with nothing else changed; otherwise
the four header words of PBUF, the payload's range, and success. -/
def Obligations.ParsehdrLoadsTheHeader : Prop :=
  decode 0x00000004#32 = .ok .parsehdr ∧
  ∀ s : State,
    (s.pktLen.toNat > s.cfg.pbufSize → exec .parsehdr s = .next (s.recordedError 4)) ∧
    (s.pktLen.toNat ≤ s.cfg.pbufSize → s.pktLen.toNat < 16 →
      exec .parsehdr s = .next (s.recordedError 1)) ∧
    (s.pktLen.toNat ≤ s.cfg.pbufSize → 16 ≤ s.pktLen.toNat →
      exec .parsehdr s = .next (State.recordedOk
        { s with
          hdrTo := le32 (s.pbuf.read 0) (s.pbuf.read 1) (s.pbuf.read 2) (s.pbuf.read 3)
          hdrFrom := le32 (s.pbuf.read 4) (s.pbuf.read 5) (s.pbuf.read 6) (s.pbuf.read 7)
          hdrId := le32 (s.pbuf.read 8) (s.pbuf.read 9) (s.pbuf.read 10) (s.pbuf.read 11)
          hdrMisc := le32 (s.pbuf.read 12) (s.pbuf.read 13) (s.pbuf.read 14) (s.pbuf.read 15)
          ctrOff := 16
          ctrLen := BitVec.ofNat 32 (s.pktLen.toNat - 16) }))

/-- R124's sentence that a successful PARSEHDR is `ParseHeader(PBUF[0..PKT_LEN-1])` with the results
placed in the registers of R15. -/
def Obligations.ParsehdrIsParseHeaderOfThePacket : Prop :=
  ∀ s : State, s.pktLen.toNat ≤ s.cfg.pbufSize → 16 ≤ s.pktLen.toNat →
    ∃ h t, parseHeader (readBytes s.pbuf 0 s.pktLen.toNat) = some h ∧ exec .parsehdr s = .next t ∧
      t.hdrTo = h.toAddress ∧ t.hdrFrom = h.fromAddress ∧ t.hdrId = h.packetId ∧
      t.hdrMisc.extractLsb' 0 8 = h.flags ∧ t.hdrMisc.extractLsb' 8 8 = h.channel ∧
      t.hdrMisc.extractLsb' 16 8 = h.nextHop ∧ t.hdrMisc.extractLsb' 24 8 = h.relayNode

/-- R125, BUILDNONCE: in words `NONCE0 <- HDR_ID; NONCE1 <- 0; NONCE2 <- HDR_FROM; NONCE3 <- 0`, and
success; nothing else changes, and it cannot fail. -/
def Obligations.BuildnonceLaysOutTheNonce : Prop :=
  decode 0x00000005#32 = .ok .buildnonce ∧
  ∀ s : State, ∃ n : Block,
    exec .buildnonce s = .next (State.recordedOk { s with nonce := n }) ∧
    n = buildNonce s.hdrId s.hdrFrom ∧
    groupWord n 0 = s.hdrId ∧ groupWord n 1 = 0 ∧ groupWord n 2 = s.hdrFrom ∧ groupWord n 3 = 0

/-- R67 from end to end: PARSEHDR then BUILDNONCE lays `packet_id` and `from_address` of the packet in
PBUF into the nonce, byte by byte. -/
def Obligations.NonceComesFromThePacketBytes : Prop :=
  ∀ s : State, s.pktLen.toNat ≤ s.cfg.pbufSize → 16 ≤ s.pktLen.toNat →
    ∃ t u, exec .parsehdr s = .next t ∧ exec .buildnonce t = .next u ∧
      u.nonce =
        #v[s.pbuf.read 8, s.pbuf.read 9, s.pbuf.read 10, s.pbuf.read 11, 0, 0, 0, 0,
           s.pbuf.read 4, s.pbuf.read 5, s.pbuf.read 6, s.pbuf.read 7, 0, 0, 0, 0]

/-- R122 and R123: the outputs of `CalcRouting`. Without underflow `skip_count` is the difference;
with it, the 8-bit wrap 249..255, flagged and not corrected. -/
def Obligations.SkipCountUnderflowIsFlagged : Prop :=
  ∀ (flags : Byte) (toAddress : Word),
    (calcRouting flags toAddress).hopLimit = flags &&& 0x07 ∧
    (calcRouting flags toAddress).hopStart = (flags >>> 5) &&& 0x07 ∧
    ((calcRouting flags toAddress).heardDirectly = true ↔ toAddress ≠ 0xFFFFFFFF#32) ∧
    (((flags >>> 5) &&& 0x07).toNat ≥ (flags &&& 0x07).toNat →
      (calcRouting flags toAddress).skipUf = false ∧
      (calcRouting flags toAddress).skipCount.toNat =
        ((flags >>> 5) &&& 0x07).toNat - (flags &&& 0x07).toNat ∧
      (calcRouting flags toAddress).skipCount.toNat ≤ 7) ∧
    (((flags >>> 5) &&& 0x07).toNat < (flags &&& 0x07).toNat →
      (calcRouting flags toAddress).skipUf = true ∧
      (calcRouting flags toAddress).skipCount.toNat =
        256 + ((flags >>> 5) &&& 0x07).toNat - (flags &&& 0x07).toNat ∧
      249 ≤ (calcRouting flags toAddress).skipCount.toNat)

/-- R126 and R19, CALCROUTE: the fields of `ROUTE`, its reserved bits 0, and success; nothing else
changes, and it cannot fail. -/
def Obligations.CalcrouteWritesTheRouteWord : Prop :=
  decode 0x00000006#32 = .ok .calcroute ∧
  ∀ s : State, ∃ r : Word,
    exec .calcroute s = .next (State.recordedOk { s with route := r }) ∧
    r.extractLsb' 0 3 = s.hdrMisc.extractLsb' 0 3 ∧
    r.extractLsb' 4 3 = s.hdrMisc.extractLsb' 5 3 ∧
    r.getLsbD 8 = decide (s.hdrTo ≠ 0xFFFFFFFF#32) ∧
    r.getLsbD 9 =
      decide ((s.hdrMisc.extractLsb' 0 3).toNat > (s.hdrMisc.extractLsb' 5 3).toNat) ∧
    (r.extractLsb' 16 8).toNat =
      (256 + (s.hdrMisc.extractLsb' 5 3).toNat - (s.hdrMisc.extractLsb' 0 3).toNat) % 256 ∧
    r &&& 0xFF00FC88#32 = 0

/-- R127: `channel`, `next_hop`, `relay_node` and flags bits 4:3 are read by no command: changing them
changes no command's outcome but for `HDR_MISC` itself. -/
def Obligations.UninterpretedHeaderBitsAreIgnored : Prop :=
  ∀ (i : Instr) (s t : State) (misc : Word), misc &&& 0x000000E7#32 = s.hdrMisc &&& 0x000000E7#32 →
    exec i s = .next t →
    ∃ u, exec i { s with hdrMisc := misc } = .next u ∧ { u with hdrMisc := t.hdrMisc } = t

/-! ## The endings of a command -/

/-- R140 and the error codes of R141: a command word of any value ends in exactly one of two ways,
success (`OK` 1, `ERRCODE` 0) or one error (`OK` 0, `ERRCODE` 1, 2, 3 or 4), and the block then takes
the next host event. -/
def Obligations.CommandsSucceedOrRaise : Prop :=
  ∀ (s : State) (q : List HostEvent) (v : Word), s.inputs = .write 32 0x000 v :: q →
    ∃ t, step s = .next t ∧
      ((t.status.getLsbD 1 = true ∧ t.errcode = 0) ∨
        (t.status.getLsbD 1 = false ∧
          (t.errcode = 1 ∨ t.errcode = 2 ∨ t.errcode = 3 ∨ t.errcode = 4))) ∧
      ∃ u, step t = .next u

/-- R148: whatever word is written to `CMD`, a command that fails changes `STATUS.OK` and `ERRCODE` and
nothing else. -/
def Obligations.FailedCommandChangesOnlyTheRecord : Prop :=
  ∀ (s t : State) (q : List HostEvent) (v : Word), s.inputs = .write 32 0x000 v :: q →
    step s = .next t → t.status.getLsbD 1 = false →
    t = State.recordedError { s with inputs := q, response := .accepted } t.errcode

/-- R147: the error code a `CMD` write leaves, the first failing check of the fixed order; 0 where
none fails. `OK` is set exactly then. -/
def Obligations.ErrorsAreReportedInOrder : Prop :=
  ∀ (s t : State) (q : List HostEvent) (v : Word), s.inputs = .write 32 0x000 v :: q →
    step s = .next t →
    t.errcode =
      (if v.toNat = 0 ∨ 6 < v.toNat then 3#32
      else if (v = 2#32 ∨ v = 3#32) ∧ s.status.getLsbD 0 = false then 2#32
      else if (v = 3#32 ∧ s.ctrOff.toNat + s.ctrLen.toNat > s.cfg.pbufSize) ∨
          (v = 4#32 ∧ s.pktLen.toNat > s.cfg.pbufSize) then 4#32
      else if v = 4#32 ∧ s.pktLen.toNat < 16 then 1#32
      else 0#32) ∧
    (t.status.getLsbD 1 = true ↔ t.errcode = 0)

/-- R149: between commands nothing touches the result record: neither a read, nor a write of an operand
register or of PBUF, nor a refused transaction. -/
def Obligations.RecordChangesOnlyAtCommandsAndReset : Prop :=
  ∀ (s t : State) (e : HostEvent) (q : List HostEvent), s.inputs = e :: q → step s = .next t →
    (∀ v, e ≠ .write 32 0x000 v) → (∀ d, e ≠ .reset d) →
    t.status = s.status ∧ t.errcode = s.errcode

/-! ## Frames over all commands -/

/-- Who writes what (R10 to R15, R17 to R19, R21 to R23, R25): each command changes its own
destinations and the result record, and no command changes `KEY_IN`, `BLK_IN`, `PKT_LEN` or a bit of
`STATUS` other than `KEY_VALID` and `OK`. Every byte of PBUF is unchanged by every command but
CTRXOR. -/
def Obligations.CommandsWriteOnlyTheirDestinations : Prop :=
  ∀ (i : Instr) (s t : State), exec i s = .next t →
    t.keyIn = s.keyIn ∧ t.blkIn = s.blkIn ∧ t.pktLen = s.pktLen ∧
    t.status &&& 0xFFFFFFFC#32 = s.status &&& 0xFFFFFFFC#32 ∧
    (i ≠ .setkey → t.key = s.key ∧ t.rk = s.rk ∧ t.status.getLsbD 0 = s.status.getLsbD 0) ∧
    (i ≠ .encblk → t.blkOut = s.blkOut) ∧
    (i ≠ .ctrxor → t.pbuf = s.pbuf ∧ ∀ a, t.pbuf.read a = s.pbuf.read a) ∧
    (i ≠ .parsehdr → t.hdrTo = s.hdrTo ∧ t.hdrFrom = s.hdrFrom ∧ t.hdrId = s.hdrId ∧
      t.hdrMisc = s.hdrMisc ∧ t.ctrOff = s.ctrOff ∧ t.ctrLen = s.ctrLen) ∧
    (i ≠ .buildnonce → t.nonce = s.nonce) ∧
    (i ≠ .calcroute → t.route = s.route) ∧
    t.cfg = s.cfg ∧ t.inputs = s.inputs ∧ t.response = s.response

/-- R23 over every step: the key store changes only by SETKEY, which writes all of it from `KEY_IN`,
and by reset. -/
def Obligations.OnlySetkeyAndResetWriteTheKeyStore : Prop :=
  ∀ s t : State, step s = .next t →
    (t.key = s.key ∧ t.rk = s.rk) ∨
    (∃ q, s.inputs = .write 32 0x000 0x00000001#32 :: q ∧
      t.key = s.keyIn ∧ t.rk = keyExpansion s.keyIn) ∨
    (∃ d q, s.inputs = .reset d :: q)

/-- R17: `KEY_VALID` is set by SETKEY only and cleared by reset only. -/
def Obligations.KeyValidSetBySetkeyClearedByReset : Prop :=
  ∀ s t : State, step s = .next t →
    (s.status.getLsbD 0 = false → t.status.getLsbD 0 = true →
      ∃ q, s.inputs = .write 32 0x000 0x00000001#32 :: q) ∧
    (s.status.getLsbD 0 = true → t.status.getLsbD 0 = false →
      ∃ d q, s.inputs = .reset d :: q)

/-- R23 and R11 as a flow of information: two states that differ in `KEY_IN`, `KEY` and `RK` only still
differ in them only after any step but an ENCBLK or CTRXOR. In particular no host read returns key
material. -/
def Obligations.KeyMaterialFlowsOnlyThroughTheCipher : Prop :=
  ∀ (s t : State) (b k : Block) (r : RoundKeys), step s = .next t →
    (∀ q, s.inputs ≠ .write 32 0x000 0x00000002#32 :: q) →
    (∀ q, s.inputs ≠ .write 32 0x000 0x00000003#32 :: q) →
    ∃ b' k' r', step { s with keyIn := b, key := k, rk := r } =
      .next { t with keyIn := b', key := k', rk := r' }

/-! ## The register window -/

/-- R64: the three conversions between bytes and words. -/
def Obligations.ByteConversions : Prop :=
  (∀ b0 b1 b2 b3 : Byte, (le32 b0 b1 b2 b3).toNat =
    b0.toNat + 256 * b1.toNat + 65536 * b2.toNat + 16777216 * b3.toNat) ∧
  (∀ x : Word, le32Bytes x =
    #v[x.extractLsb' 0 8, x.extractLsb' 8 8, x.extractLsb' 16 8, x.extractLsb' 24 8]) ∧
  (∀ x : Word, be32Bytes x =
    #v[x.extractLsb' 24 8, x.extractLsb' 16 8, x.extractLsb' 8 8, x.extractLsb' 0 8])

/-- R45: the two views of a sixteen-byte group, and a word of PBUF and its four bytes, are little-endian
lanes of the same cells; writing one word changes its four bytes alone. -/
def Obligations.GroupLanesAreLittleEndian : Prop :=
  (∀ (m : Memory) (w : Nat), pbufWord m w =
    le32 (m.read (4 * w)) (m.read (4 * w + 1)) (m.read (4 * w + 2)) (m.read (4 * w + 3))) ∧
  ∀ g : Block,
    (∀ j : Fin 4, groupWord g j =
      le32 g[4 * j.val] g[4 * j.val + 1] g[4 * j.val + 2] g[4 * j.val + 3]) ∧
    (∀ (j : Fin 4) (m : Fin 4), g[4 * j.val + m.val] =
      (groupWord g j).extractLsb' (8 * m.val) 8) ∧
    (∀ (i j : Fin 4) (v : Word),
      groupWord (setGroupWord g j v) i = if i = j then v else groupWord g i)

/-- R43, for every target of the map of R41: what a read returns and what a write does. A read changes
nothing; a write of a read-only register is ignored; `CMD` and `KEY_IN` read as 0; a write to `CMD`
executes the command; a window word is the four bytes of PBUF at its index. -/
def Obligations.TransactionsFollowTheRegisterMap : Prop :=
  ∀ (s : State) (q : List HostEvent) (v : Word),
    (∀ row ∈ readWriteRegisters,
      step { s with inputs := .read 32 row.offset :: q } =
        .next { s with inputs := q, response := .data (row.value s) } ∧
      step { s with inputs := .write 32 row.offset v :: q } =
        .next { row.store s v with inputs := q, response := .accepted }) ∧
    (∀ row ∈ readOnlyRegisters,
      step { s with inputs := .read 32 row.offset :: q } =
        .next { s with inputs := q, response := .data (row.value s) } ∧
      step { s with inputs := .write 32 row.offset v :: q } =
        .next { s with inputs := q, response := .accepted }) ∧
    (∀ j : Fin 4,
      step { s with inputs := .read 32 (0x020 + 4 * j.val) :: q } =
        .next { s with inputs := q, response := .data 0 } ∧
      step { s with inputs := .write 32 (0x020 + 4 * j.val) v :: q } =
        .next { s with
          keyIn := setGroupWord s.keyIn j v
          inputs := q
          response := .accepted }) ∧
    step { s with inputs := .read 32 0x000 :: q } =
      .next { s with inputs := q, response := .data 0 } ∧
    (∀ i, decode v = .ok i →
      step { s with inputs := .write 32 0x000 v :: q } =
        exec i { s with inputs := q, response := .accepted }) ∧
    (∀ e, decode v = .error e →
      step { s with inputs := .write 32 0x000 v :: q } =
        .next (State.recordedError { s with inputs := q, response := .accepted } 3)) ∧
    (∀ w, 0x100 + 4 * w < 0x100 + s.cfg.pbufSize →
      step { s with inputs := .read 32 (0x100 + 4 * w) :: q } =
        .next { s with
          inputs := q
          response := .data (le32 (s.pbuf.read (4 * w)) (s.pbuf.read (4 * w + 1))
            (s.pbuf.read (4 * w + 2)) (s.pbuf.read (4 * w + 3))) } ∧
      ∃ m : Memory,
        step { s with inputs := .write 32 (0x100 + 4 * w) v :: q } =
          .next { s with pbuf := m, inputs := q, response := .accepted } ∧
        (s.pbuf.wf → ∀ a, m.read a =
          if 4 * w ≤ a ∧ a < 4 * w + 4 then v.extractLsb' (8 * (a - 4 * w)) 8 else s.pbuf.read a))

/-- R42: a host read changes no state, whatever its width and offset. -/
def Obligations.HostReadChangesNoState : Prop :=
  ∀ (s : State) (q : List HostEvent) (width off : Nat), ∃ r,
    step { s with inputs := .read width off :: q } = .next { s with inputs := q, response := r }

/-- R52 for the cells of the window: a read returns the word of the latest write to that cell. -/
def Obligations.ReadReturnsTheLatestWrite : Prop :=
  ∀ (s : State) (q : List HostEvent) (v : Word) (off : Nat), s.BufferOk → s.cfg.Valid →
    off % 4 = 0 →
    ((0x00C ≤ off ∧ off ≤ 0x014) ∨ (0x030 ≤ off ∧ off ≤ 0x03C) ∨ (0x050 ≤ off ∧ off ≤ 0x06C) ∨
      (0x100 ≤ off ∧ off < 0x100 + s.cfg.pbufSize)) →
    ∃ t, step { s with inputs := .write 32 off v :: .read 32 off :: q } = .next t ∧
      step t = .next { t with inputs := q, response := .data v }

/-- R44 and R146: a transaction that is not 32 bits wide, not at a multiple of 4, or at an unmapped
offset is refused with no change of state, and no other transaction is. -/
def Obligations.BusErrorChangesNoState : Prop :=
  ∀ (s : State) (q : List HostEvent) (width off : Nat) (v : Word),
    (width ≠ 32 ∨ off % 4 ≠ 0 ∨ off = 0x01C ∨ (0x070 ≤ off ∧ off < 0x100) ∨
        0x100 + s.cfg.pbufSize ≤ off →
      step { s with inputs := .read width off :: q } =
        .next { s with inputs := q, response := .busError } ∧
      step { s with inputs := .write width off v :: q } =
        .next { s with inputs := q, response := .busError }) ∧
    (¬ (width ≠ 32 ∨ off % 4 ≠ 0 ∨ off = 0x01C ∨ (0x070 ≤ off ∧ off < 0x100) ∨
        0x100 + s.cfg.pbufSize ≤ off) →
      (∃ w, step { s with inputs := .read width off :: q } =
        .next { s with inputs := q, response := .data w }) ∧
      ∃ t, step { s with inputs := .write width off v :: q } = .next t ∧ t.response = .accepted)

/-! ## Reset -/

/-- R160: the reset event, in every state and whatever the unspecified cells take, leaves every
host-visible register at 0, so `KEY_VALID = 0`, `OK = 0` and `ERRCODE = 0`. -/
def Obligations.ResetEventClearsTheRegisters : Prop :=
  ∀ (s : State) (d : ResetDraw) (q : List HostEvent), ∃ t,
    step { s with inputs := .reset d :: q } = .next t ∧
    (∀ k : Fin 16, t.keyIn[k] = 0 ∧ t.blkIn[k] = 0 ∧ t.blkOut[k] = 0 ∧ t.nonce[k] = 0) ∧
    t.hdrTo = 0 ∧ t.hdrFrom = 0 ∧ t.hdrId = 0 ∧ t.hdrMisc = 0 ∧ t.route = 0 ∧
    t.status = 0 ∧ t.errcode = 0 ∧ t.pktLen = 0 ∧ t.ctrOff = 0 ∧ t.ctrLen = 0

/-- Log entry 4, the model's reading of "unspecified" in R28 and R160: any contents of `KEY`, `RK` and
PBUF whatever can stand after a reset event, each byte independently. -/
def Obligations.ResetLeavesAnyStoreContents : Prop :=
  ∀ (s : State) (k : Block) (r : RoundKeys) (p : Nat → Byte) (q : List HostEvent),
    ∃ d t, step { s with inputs := .reset d :: q } = .next t ∧ t.key = k ∧ t.rk = r ∧
      (∀ a, a < s.cfg.pbufSize → t.pbuf.read a = p a) ∧ t.cfg = s.cfg ∧ t.inputs = q

/-- R161 and R143: a reset leaves `KEY_VALID = 0`; while it is 0 ENCBLK and CTRXOR refuse with
`ERR_NO_KEY` (2), and no step but a SETKEY ends that. -/
def Obligations.KeyIsUnusableUntilSetkey : Prop :=
  ∀ s : State,
    (∀ d q t, s.inputs = .reset d :: q → step s = .next t → t.status.getLsbD 0 = false) ∧
    (s.status.getLsbD 0 = false →
      exec .encblk s = .next (s.recordedError 2) ∧ exec .ctrxor s = .next (s.recordedError 2) ∧
      ∀ t, step s = .next t → (∀ q, s.inputs ≠ .write 32 0x000 0x00000001#32 :: q) →
        t.status.getLsbD 0 = false)

/-! ## The whole machine -/

/-- The block is never stuck: every step of every state answers a next state, no step changes the
parameters, and where the host issues nothing (log entry 8, the model's reading of R6) nothing
changes. -/
def Obligations.StepAlwaysAnswers : Prop :=
  ∀ s : State, (∃ t, step s = .next t ∧ t.cfg = s.cfg) ∧ (s.inputs = [] → step s = .next s)

/-- The state after reset meets the invariant. Its parameters and its unspecified contents are the
model's choice (log entries 1 to 3). -/
def Obligations.ResetStateMeetsTheInvariant : Prop := State.reset.Inv

/-- Every step keeps the invariant: R5, R25 and R40 (PBUF canonical and inside its size), R17, R18 and
R19 (reserved bits, legal codes, a route word that is consistent), R24 (the key store). -/
def Obligations.StepKeepsTheInvariant : Prop :=
  ∀ s t : State, s.Inv → step s = .next t → t.Inv
end

