-- ==== Sys2Proof/Laws/State.lean ====
section
/-! SUPPORT. One lemma per field per named update of the state, true by rfl: what each update writes
and that it leaves every other field alone. -/

namespace Sys2Proof.Machine

/-! ## succeed (R154) -/

@[simp] theorem succeed_keyIn (s : State) :
    (succeed s).keyIn = s.keyIn := rfl
@[simp] theorem succeed_blkIn (s : State) :
    (succeed s).blkIn = s.blkIn := rfl
@[simp] theorem succeed_blkOut (s : State) :
    (succeed s).blkOut = s.blkOut := rfl
@[simp] theorem succeed_nonce (s : State) :
    (succeed s).nonce = s.nonce := rfl
@[simp] theorem succeed_hdrTo (s : State) :
    (succeed s).hdrTo = s.hdrTo := rfl
@[simp] theorem succeed_hdrFrom (s : State) :
    (succeed s).hdrFrom = s.hdrFrom := rfl
@[simp] theorem succeed_hdrId (s : State) :
    (succeed s).hdrId = s.hdrId := rfl
@[simp] theorem succeed_hdrMisc (s : State) :
    (succeed s).hdrMisc = s.hdrMisc := rfl
@[simp] theorem succeed_route (s : State) :
    (succeed s).route = s.route := rfl
@[simp] theorem succeed_status (s : State) :
    (succeed s).status = setOk s.status true := rfl
@[simp] theorem succeed_errcode (s : State) :
    (succeed s).errcode = errWord .none := rfl
@[simp] theorem succeed_pktLen (s : State) :
    (succeed s).pktLen = s.pktLen := rfl
@[simp] theorem succeed_ctrOff (s : State) :
    (succeed s).ctrOff = s.ctrOff := rfl
@[simp] theorem succeed_ctrLen (s : State) :
    (succeed s).ctrLen = s.ctrLen := rfl
@[simp] theorem succeed_key (s : State) :
    (succeed s).key = s.key := rfl
@[simp] theorem succeed_rk (s : State) :
    (succeed s).rk = s.rk := rfl
@[simp] theorem succeed_pbuf (s : State) :
    (succeed s).pbuf = s.pbuf := rfl
@[simp] theorem succeed_cfg (s : State) :
    (succeed s).cfg = s.cfg := rfl
@[simp] theorem succeed_inputs (s : State) :
    (succeed s).inputs = s.inputs := rfl
@[simp] theorem succeed_response (s : State) :
    (succeed s).response = s.response := rfl

/-! ## raiseError (R148) -/

@[simp] theorem raiseError_keyIn (c : ErrCode) (s : State) :
    (raiseError c s).keyIn = s.keyIn := rfl
@[simp] theorem raiseError_blkIn (c : ErrCode) (s : State) :
    (raiseError c s).blkIn = s.blkIn := rfl
@[simp] theorem raiseError_blkOut (c : ErrCode) (s : State) :
    (raiseError c s).blkOut = s.blkOut := rfl
@[simp] theorem raiseError_nonce (c : ErrCode) (s : State) :
    (raiseError c s).nonce = s.nonce := rfl
@[simp] theorem raiseError_hdrTo (c : ErrCode) (s : State) :
    (raiseError c s).hdrTo = s.hdrTo := rfl
@[simp] theorem raiseError_hdrFrom (c : ErrCode) (s : State) :
    (raiseError c s).hdrFrom = s.hdrFrom := rfl
@[simp] theorem raiseError_hdrId (c : ErrCode) (s : State) :
    (raiseError c s).hdrId = s.hdrId := rfl
@[simp] theorem raiseError_hdrMisc (c : ErrCode) (s : State) :
    (raiseError c s).hdrMisc = s.hdrMisc := rfl
@[simp] theorem raiseError_route (c : ErrCode) (s : State) :
    (raiseError c s).route = s.route := rfl
@[simp] theorem raiseError_status (c : ErrCode) (s : State) :
    (raiseError c s).status = setOk s.status false := rfl
@[simp] theorem raiseError_errcode (c : ErrCode) (s : State) :
    (raiseError c s).errcode = errWord c := rfl
@[simp] theorem raiseError_pktLen (c : ErrCode) (s : State) :
    (raiseError c s).pktLen = s.pktLen := rfl
@[simp] theorem raiseError_ctrOff (c : ErrCode) (s : State) :
    (raiseError c s).ctrOff = s.ctrOff := rfl
@[simp] theorem raiseError_ctrLen (c : ErrCode) (s : State) :
    (raiseError c s).ctrLen = s.ctrLen := rfl
@[simp] theorem raiseError_key (c : ErrCode) (s : State) :
    (raiseError c s).key = s.key := rfl
@[simp] theorem raiseError_rk (c : ErrCode) (s : State) :
    (raiseError c s).rk = s.rk := rfl
@[simp] theorem raiseError_pbuf (c : ErrCode) (s : State) :
    (raiseError c s).pbuf = s.pbuf := rfl
@[simp] theorem raiseError_cfg (c : ErrCode) (s : State) :
    (raiseError c s).cfg = s.cfg := rfl
@[simp] theorem raiseError_inputs (c : ErrCode) (s : State) :
    (raiseError c s).inputs = s.inputs := rfl
@[simp] theorem raiseError_response (c : ErrCode) (s : State) :
    (raiseError c s).response = s.response := rfl

/-! ## respond -/

@[simp] theorem respond_keyIn (r : Response) (s : State) :
    (respond r s).keyIn = s.keyIn := rfl
@[simp] theorem respond_blkIn (r : Response) (s : State) :
    (respond r s).blkIn = s.blkIn := rfl
@[simp] theorem respond_blkOut (r : Response) (s : State) :
    (respond r s).blkOut = s.blkOut := rfl
@[simp] theorem respond_nonce (r : Response) (s : State) :
    (respond r s).nonce = s.nonce := rfl
@[simp] theorem respond_hdrTo (r : Response) (s : State) :
    (respond r s).hdrTo = s.hdrTo := rfl
@[simp] theorem respond_hdrFrom (r : Response) (s : State) :
    (respond r s).hdrFrom = s.hdrFrom := rfl
@[simp] theorem respond_hdrId (r : Response) (s : State) :
    (respond r s).hdrId = s.hdrId := rfl
@[simp] theorem respond_hdrMisc (r : Response) (s : State) :
    (respond r s).hdrMisc = s.hdrMisc := rfl
@[simp] theorem respond_route (r : Response) (s : State) :
    (respond r s).route = s.route := rfl
@[simp] theorem respond_status (r : Response) (s : State) :
    (respond r s).status = s.status := rfl
@[simp] theorem respond_errcode (r : Response) (s : State) :
    (respond r s).errcode = s.errcode := rfl
@[simp] theorem respond_pktLen (r : Response) (s : State) :
    (respond r s).pktLen = s.pktLen := rfl
@[simp] theorem respond_ctrOff (r : Response) (s : State) :
    (respond r s).ctrOff = s.ctrOff := rfl
@[simp] theorem respond_ctrLen (r : Response) (s : State) :
    (respond r s).ctrLen = s.ctrLen := rfl
@[simp] theorem respond_key (r : Response) (s : State) :
    (respond r s).key = s.key := rfl
@[simp] theorem respond_rk (r : Response) (s : State) :
    (respond r s).rk = s.rk := rfl
@[simp] theorem respond_pbuf (r : Response) (s : State) :
    (respond r s).pbuf = s.pbuf := rfl
@[simp] theorem respond_cfg (r : Response) (s : State) :
    (respond r s).cfg = s.cfg := rfl
@[simp] theorem respond_inputs (r : Response) (s : State) :
    (respond r s).inputs = s.inputs := rfl
@[simp] theorem respond_response (r : Response) (s : State) :
    (respond r s).response = r := rfl

/-! ## withInputs -/

@[simp] theorem withInputs_keyIn (q : List HostEvent) (s : State) :
    (withInputs q s).keyIn = s.keyIn := rfl
@[simp] theorem withInputs_blkIn (q : List HostEvent) (s : State) :
    (withInputs q s).blkIn = s.blkIn := rfl
@[simp] theorem withInputs_blkOut (q : List HostEvent) (s : State) :
    (withInputs q s).blkOut = s.blkOut := rfl
@[simp] theorem withInputs_nonce (q : List HostEvent) (s : State) :
    (withInputs q s).nonce = s.nonce := rfl
@[simp] theorem withInputs_hdrTo (q : List HostEvent) (s : State) :
    (withInputs q s).hdrTo = s.hdrTo := rfl
@[simp] theorem withInputs_hdrFrom (q : List HostEvent) (s : State) :
    (withInputs q s).hdrFrom = s.hdrFrom := rfl
@[simp] theorem withInputs_hdrId (q : List HostEvent) (s : State) :
    (withInputs q s).hdrId = s.hdrId := rfl
@[simp] theorem withInputs_hdrMisc (q : List HostEvent) (s : State) :
    (withInputs q s).hdrMisc = s.hdrMisc := rfl
@[simp] theorem withInputs_route (q : List HostEvent) (s : State) :
    (withInputs q s).route = s.route := rfl
@[simp] theorem withInputs_status (q : List HostEvent) (s : State) :
    (withInputs q s).status = s.status := rfl
@[simp] theorem withInputs_errcode (q : List HostEvent) (s : State) :
    (withInputs q s).errcode = s.errcode := rfl
@[simp] theorem withInputs_pktLen (q : List HostEvent) (s : State) :
    (withInputs q s).pktLen = s.pktLen := rfl
@[simp] theorem withInputs_ctrOff (q : List HostEvent) (s : State) :
    (withInputs q s).ctrOff = s.ctrOff := rfl
@[simp] theorem withInputs_ctrLen (q : List HostEvent) (s : State) :
    (withInputs q s).ctrLen = s.ctrLen := rfl
@[simp] theorem withInputs_key (q : List HostEvent) (s : State) :
    (withInputs q s).key = s.key := rfl
@[simp] theorem withInputs_rk (q : List HostEvent) (s : State) :
    (withInputs q s).rk = s.rk := rfl
@[simp] theorem withInputs_pbuf (q : List HostEvent) (s : State) :
    (withInputs q s).pbuf = s.pbuf := rfl
@[simp] theorem withInputs_cfg (q : List HostEvent) (s : State) :
    (withInputs q s).cfg = s.cfg := rfl
@[simp] theorem withInputs_inputs (q : List HostEvent) (s : State) :
    (withInputs q s).inputs = q := rfl
@[simp] theorem withInputs_response (q : List HostEvent) (s : State) :
    (withInputs q s).response = s.response := rfl

/-! ## resetEvent (R160) -/

@[simp] theorem resetEvent_keyIn (d : ResetDraw) (s : State) :
    (resetEvent d s).keyIn = zeroBlock := rfl
@[simp] theorem resetEvent_blkIn (d : ResetDraw) (s : State) :
    (resetEvent d s).blkIn = zeroBlock := rfl
@[simp] theorem resetEvent_blkOut (d : ResetDraw) (s : State) :
    (resetEvent d s).blkOut = zeroBlock := rfl
@[simp] theorem resetEvent_nonce (d : ResetDraw) (s : State) :
    (resetEvent d s).nonce = zeroBlock := rfl
@[simp] theorem resetEvent_hdrTo (d : ResetDraw) (s : State) :
    (resetEvent d s).hdrTo = 0 := rfl
@[simp] theorem resetEvent_hdrFrom (d : ResetDraw) (s : State) :
    (resetEvent d s).hdrFrom = 0 := rfl
@[simp] theorem resetEvent_hdrId (d : ResetDraw) (s : State) :
    (resetEvent d s).hdrId = 0 := rfl
@[simp] theorem resetEvent_hdrMisc (d : ResetDraw) (s : State) :
    (resetEvent d s).hdrMisc = 0 := rfl
@[simp] theorem resetEvent_route (d : ResetDraw) (s : State) :
    (resetEvent d s).route = 0 := rfl
@[simp] theorem resetEvent_status (d : ResetDraw) (s : State) :
    (resetEvent d s).status = 0 := rfl
@[simp] theorem resetEvent_errcode (d : ResetDraw) (s : State) :
    (resetEvent d s).errcode = 0 := rfl
@[simp] theorem resetEvent_pktLen (d : ResetDraw) (s : State) :
    (resetEvent d s).pktLen = 0 := rfl
@[simp] theorem resetEvent_ctrOff (d : ResetDraw) (s : State) :
    (resetEvent d s).ctrOff = 0 := rfl
@[simp] theorem resetEvent_ctrLen (d : ResetDraw) (s : State) :
    (resetEvent d s).ctrLen = 0 := rfl
@[simp] theorem resetEvent_key (d : ResetDraw) (s : State) :
    (resetEvent d s).key = d.key := rfl
@[simp] theorem resetEvent_rk (d : ResetDraw) (s : State) :
    (resetEvent d s).rk = d.rk := rfl
@[simp] theorem resetEvent_pbuf (d : ResetDraw) (s : State) :
    (resetEvent d s).pbuf = bytesMemory 0 (d.pbuf.take s.cfg.pbufSize) := rfl
@[simp] theorem resetEvent_cfg (d : ResetDraw) (s : State) :
    (resetEvent d s).cfg = s.cfg := rfl
@[simp] theorem resetEvent_inputs (d : ResetDraw) (s : State) :
    (resetEvent d s).inputs = s.inputs := rfl
@[simp] theorem resetEvent_response (d : ResetDraw) (s : State) :
    (resetEvent d s).response = .idle := rfl

end Sys2Proof.Machine
end

