-- ==== Sys2Proof/Laws/Memory.lean ====
section
/-! SUPPORT. The packet buffer: what a read sees after a write, that every operation keeps the
canonical form and the size bound, and that two canonical buffers with the same bytes are equal. -/

namespace Sys2Proof.Machine

/-- Every listed index lies below `n`. -/
abbrev Memory.below (m : Memory) (n : Nat) : Prop := ∀ c ∈ m, c.1 < n

@[simp] theorem Memory.read_nil (k : Nat) : Memory.read [] k = Memory.unlisted := rfl

@[simp] theorem Memory.read_listed (c : Host.Cell) (m : Memory) (k : Nat) :
    Memory.read (c :: m) k = if c.1 = k then c.2 else Memory.read m k := rfl

theorem Memory.wf_nil : Memory.wf [] := ⟨List.Pairwise.nil, by simp⟩

theorem Memory.wf_tail {c : Host.Cell} {m : Memory} (h : Memory.wf (c :: m)) : Memory.wf m :=
  ⟨(List.pairwise_cons.mp h.1).2, fun d hd => h.2 d (List.mem_cons_of_mem _ hd)⟩

theorem Memory.head_lt {c : Host.Cell} {m : Memory} (h : Memory.wf (c :: m)) :
    ∀ d ∈ m, c.1 < d.1 := (List.pairwise_cons.mp h.1).1

/-- An index that no entry lists reads as an unlisted one. -/
theorem Memory.read_of_not_listed {m : Memory} {k : Nat} (h : ∀ c ∈ m, c.1 ≠ k) :
    m.read k = Memory.unlisted := by
  induction m with
  | nil => rfl
  | cons c m ih =>
    have hc : c.1 ≠ k := h c List.mem_cons_self
    simp [hc, ih fun d hd => h d (List.mem_cons_of_mem _ hd)]

theorem Memory.read_cons {m : Memory} {k : Nat} {v : Byte} (h : ∀ c ∈ m, k < c.1) (a : Nat) :
    (Memory.cons k v m).read a = if k = a then v else m.read a := by
  unfold Memory.cons
  split
  · rename_i hv
    split
    · subst a
      rw [hv]
      exact Memory.read_of_not_listed fun c hc => Nat.ne_of_gt (h c hc)
    · rfl
  · rfl

theorem Memory.cons_wf {m : Memory} {k : Nat} {v : Byte} (hm : m.wf) (h : ∀ c ∈ m, k < c.1) :
    (Memory.cons k v m).wf := by
  unfold Memory.cons
  split
  · exact hm
  · rename_i hv
    refine ⟨List.pairwise_cons.mpr ⟨h, hm.1⟩, fun c hc => ?_⟩
    rcases List.mem_cons.mp hc with rfl | hc
    · exact hv
    · exact hm.2 c hc

theorem Memory.mem_cons {m : Memory} {k : Nat} {v : Byte} {c : Host.Cell}
    (h : c ∈ Memory.cons k v m) : c = (k, v) ∨ c ∈ m := by
  unfold Memory.cons at h
  split at h
  · exact .inr h
  · exact List.mem_cons.mp h

/-- An entry of the buffer after a write is the one written or was there before. -/
theorem Memory.mem_write {m : Memory} {k : Nat} {v : Byte} {c : Host.Cell}
    (h : c ∈ m.write k v) : c = (k, v) ∨ c ∈ m := by
  induction m with
  | nil => exact Memory.mem_cons h
  | cons d m ih =>
    obtain ⟨a, b⟩ := d
    simp only [Memory.write] at h
    split at h
    · exact Memory.mem_cons h
    · split at h
      · exact (Memory.mem_cons h).imp_right (List.mem_cons_of_mem _)
      · rcases List.mem_cons.mp h with rfl | h
        · exact .inr List.mem_cons_self
        · exact (ih h).imp_right (List.mem_cons_of_mem _)

/-- A read sees the latest write, and every other byte as before. -/
theorem Memory.read_write {m : Memory} (hm : m.wf) (k : Nat) (v : Byte) (a : Nat) :
    (m.write k v).read a = if k = a then v else m.read a := by
  induction m with
  | nil => exact Memory.read_cons (by simp) a
  | cons d m ih =>
    obtain ⟨i, b⟩ := d
    have hi := Memory.head_lt hm
    simp only [Memory.write]
    split
    · rename_i hk
      refine Memory.read_cons (fun c hc => ?_) a
      rcases List.mem_cons.mp hc with rfl | hc
      · exact hk
      · exact Nat.lt_trans hk (hi c hc)
    · split
      · rename_i _ hk
        subst hk
        rw [Memory.read_cons hi]
        simp only [Memory.read_listed]
        split <;> rfl
      · rename_i h1 h2
        simp only [Memory.read_listed, ih (Memory.wf_tail hm)]
        by_cases hia : i = a
        · simp [hia, show k ≠ a by omega]
        · simp [hia]

/-- A write keeps the canonical form. -/
theorem Memory.write_wf {m : Memory} (hm : m.wf) (k : Nat) (v : Byte) : (m.write k v).wf := by
  induction m with
  | nil => exact Memory.cons_wf hm (by simp)
  | cons d m ih =>
    obtain ⟨i, b⟩ := d
    have hi := Memory.head_lt hm
    simp only [Memory.write]
    split
    · rename_i hk
      refine Memory.cons_wf hm fun c hc => ?_
      rcases List.mem_cons.mp hc with rfl | hc
      · exact hk
      · exact Nat.lt_trans hk (hi c hc)
    · split
      · rename_i _ hk
        subst hk
        exact Memory.cons_wf (Memory.wf_tail hm) hi
      · rename_i h1 h2
        have hw := ih (Memory.wf_tail hm)
        refine ⟨List.pairwise_cons.mpr ⟨fun c hc => ?_, hw.1⟩, fun c hc => ?_⟩
        · rcases Memory.mem_write hc with rfl | hc
          · show i < k
            omega
          · exact hi c hc
        · rcases List.mem_cons.mp hc with rfl | hc
          · exact hm.2 _ List.mem_cons_self
          · exact hw.2 c hc

theorem Memory.write_below {m : Memory} {n k : Nat} {v : Byte} (hm : m.below n) (hk : k < n) :
    (m.write k v).below n := fun c hc => by
  rcases Memory.mem_write hc with rfl | hc
  · exact hk
  · exact hm c hc

/-- Two canonical buffers with the same bytes are the same data. -/
theorem Memory.ext {m n : Memory} (hm : m.wf) (hn : n.wf) (h : ∀ k, m.read k = n.read k) :
    m = n := by
  induction m generalizing n with
  | nil =>
    cases n with
    | nil => rfl
    | cons d n =>
      have h0 := h d.1
      simp only [Memory.read_nil, Memory.read_listed, if_true] at h0
      exact absurd h0.symm (hn.2 d List.mem_cons_self)
  | cons c m ih =>
    cases n with
    | nil =>
      have h0 := h c.1
      simp only [Memory.read_nil, Memory.read_listed, if_true] at h0
      exact absurd h0 (hm.2 c List.mem_cons_self)
    | cons d n =>
      have hcm := Memory.head_lt hm
      have hdn := Memory.head_lt hn
      have key : c.1 = d.1 := by
        rcases Nat.lt_trichotomy c.1 d.1 with hlt | heq | hgt
        · have h0 := h c.1
          rw [Memory.read_of_not_listed (m := d :: n) (k := c.1) (fun e he => by
            rcases List.mem_cons.mp he with rfl | he
            · omega
            · have := hdn e he
              omega)] at h0
          simp only [Memory.read_listed, if_true] at h0
          exact absurd h0 (hm.2 c List.mem_cons_self)
        · exact heq
        · have h0 := h d.1
          rw [Memory.read_of_not_listed (m := c :: m) (k := d.1) (fun e he => by
            rcases List.mem_cons.mp he with rfl | he
            · omega
            · have := hcm e he
              omega)] at h0
          simp only [Memory.read_listed, if_true] at h0
          exact absurd h0.symm (hn.2 d List.mem_cons_self)
      have hval : c.2 = d.2 := by
        have h0 := h c.1
        simpa [key] using h0
      have htail : m = n := by
        refine ih (Memory.wf_tail hm) (Memory.wf_tail hn) fun k => ?_
        by_cases hk : c.1 = k
        · rw [Memory.read_of_not_listed fun e he => by have := hcm e he; omega,
            Memory.read_of_not_listed fun e he => by have := hdn e he; omega]
        · have h0 := h k
          simpa [← key, hk] using h0
      rw [htail, show c = d from Prod.ext key hval]

/-! ## Byte arrays -/

@[simp] theorem readBytes_length (m : Memory) (a n : Nat) : (readBytes m a n).length = n := by
  induction n generalizing a with
  | zero => rfl
  | succ n ih => simp [readBytes, ih]

/-- Byte `k` of an array read from the buffer. -/
theorem readBytes_getElem? (m : Memory) (a n k : Nat) :
    (readBytes m a n)[k]? = if k < n then some (m.read (a + k)) else none := by
  induction n generalizing a k with
  | zero => simp [readBytes]
  | succ n ih =>
    cases k with
    | zero => simp [readBytes]
    | succ k =>
      simp only [readBytes, List.getElem?_cons_succ, ih, Nat.add_lt_add_iff_right]
      rw [show a + 1 + k = a + (k + 1) by omega]

theorem writeBytes_wf {m : Memory} (hm : m.wf) (a : Nat) (bs : List Byte) :
    (writeBytes m a bs).wf := by
  induction bs generalizing m a with
  | nil => exact hm
  | cons b bs ih => exact ih (Memory.write_wf hm a b) (a + 1)

theorem writeBytes_below {m : Memory} {n a : Nat} {bs : List Byte} (hm : m.below n)
    (h : a + bs.length ≤ n) : (writeBytes m a bs).below n := by
  induction bs generalizing m a with
  | nil => exact hm
  | cons b bs ih =>
    simp only [List.length_cons] at h
    exact ih (Memory.write_below hm (by omega)) (by omega)

/-- A byte after storing an array: the array's byte inside the range, as before outside it. -/
theorem read_writeBytes {m : Memory} (hm : m.wf) (a : Nat) (bs : List Byte) (k : Nat) :
    (writeBytes m a bs).read k =
      if a ≤ k then (bs[k - a]?).getD (m.read k) else m.read k := by
  induction bs generalizing m a with
  | nil => simp [writeBytes]
  | cons b bs ih =>
    simp only [writeBytes, ih (Memory.write_wf hm a b), Memory.read_write hm]
    by_cases h1 : a + 1 ≤ k
    · have h2 : a ≤ k := by omega
      have h3 : k - a = (k - (a + 1)) + 1 := by omega
      simp [h1, h2, h3, show a ≠ k by omega]
    · by_cases h2 : a = k
      · subst h2
        simp
      · simp [h1, h2, show ¬ a ≤ k by omega]

theorem mem_bytesMemory {a : Nat} {bs : List Byte} {c : Host.Cell} (h : c ∈ bytesMemory a bs) :
    a ≤ c.1 ∧ c.1 < a + bs.length := by
  induction bs generalizing a with
  | nil => cases h
  | cons b bs ih =>
    rcases Memory.mem_cons h with rfl | h
    · simp
    · have := ih h
      simp only [List.length_cons]
      omega

theorem bytesMemory_wf (a : Nat) (bs : List Byte) : (bytesMemory a bs).wf := by
  induction bs generalizing a with
  | nil => exact Memory.wf_nil
  | cons b bs ih =>
    exact Memory.cons_wf (ih (a + 1)) fun c hc => (mem_bytesMemory hc).1

/-- The buffer built from an array holds the array's bytes and nothing else. -/
theorem read_bytesMemory (a : Nat) (bs : List Byte) (k : Nat) :
    (bytesMemory a bs).read k =
      if a ≤ k then (bs[k - a]?).getD Memory.unlisted else Memory.unlisted := by
  induction bs generalizing a with
  | nil => simp [bytesMemory]
  | cons b bs ih =>
    simp only [bytesMemory, Memory.read_cons fun c hc => (mem_bytesMemory hc).1, ih]
    by_cases h1 : a + 1 ≤ k
    · have h2 : a ≤ k := by omega
      have h3 : k - a = (k - (a + 1)) + 1 := by omega
      simp [h1, h2, h3, show a ≠ k by omega]
    · by_cases h2 : a = k
      · subst h2
        simp
      · simp [h1, h2, show ¬ a ≤ k by omega]

end Sys2Proof.Machine
end

