-- ==== Sys2Proof/Laws/Bytes.lean ====
section
/-! SUPPORT. Byte order: the two views of a sixteen-byte group and of a PBUF word agree
(`20_memory.md` rule R45), and the register window's addresses. -/

namespace Sys2Proof.Machine

/-! ## LE32 and its bytes -/

/-- The formula of R64 for `LE32`. -/
theorem le32_toNat (b0 b1 b2 b3 : Byte) :
    (le32 b0 b1 b2 b3).toNat =
      b0.toNat + 2 ^ 8 * b1.toNat + 2 ^ 16 * b2.toNat + 2 ^ 24 * b3.toNat := by
  have h0 := b0.isLt
  have h1 := b1.isLt
  have h2 := b2.isLt
  simp only [le32, BitVec.toNat_append]
  rw [← Nat.shiftLeft_add_eq_or_of_lt h2, ← Nat.shiftLeft_add_eq_or_of_lt h1,
    ← Nat.shiftLeft_add_eq_or_of_lt h0]
  simp only [Nat.shiftLeft_eq]
  omega

/-- Byte `k` of a word as a number. -/
theorem byteOf_toNat (v : Word) (k : Nat) : (byteOf v k).toNat = v.toNat / 2 ^ (8 * k) % 256 := by
  simp [byteOf, Nat.shiftRight_eq_div_pow]

@[simp] theorem byteOf_le32_0 (b0 b1 b2 b3 : Byte) : byteOf (le32 b0 b1 b2 b3) 0 = b0 := by
  apply BitVec.eq_of_toNat_eq
  have := b0.isLt
  rw [byteOf_toNat, le32_toNat]
  omega

@[simp] theorem byteOf_le32_1 (b0 b1 b2 b3 : Byte) : byteOf (le32 b0 b1 b2 b3) 1 = b1 := by
  apply BitVec.eq_of_toNat_eq
  have := b0.isLt
  have := b1.isLt
  rw [byteOf_toNat, le32_toNat]
  omega

@[simp] theorem byteOf_le32_2 (b0 b1 b2 b3 : Byte) : byteOf (le32 b0 b1 b2 b3) 2 = b2 := by
  apply BitVec.eq_of_toNat_eq
  have := b0.isLt
  have := b1.isLt
  have := b2.isLt
  rw [byteOf_toNat, le32_toNat]
  omega

@[simp] theorem byteOf_le32_3 (b0 b1 b2 b3 : Byte) : byteOf (le32 b0 b1 b2 b3) 3 = b3 := by
  apply BitVec.eq_of_toNat_eq
  have := b0.isLt
  have := b1.isLt
  have := b2.isLt
  have := b3.isLt
  rw [byteOf_toNat, le32_toNat]
  omega

/-- A word is put together again from its bytes. -/
@[simp] theorem le32_byteOf (v : Word) :
    le32 (byteOf v 0) (byteOf v 1) (byteOf v 2) (byteOf v 3) = v := by
  apply BitVec.eq_of_toNat_eq
  have := v.isLt
  simp only [le32_toNat, byteOf_toNat]
  omega

/-! ## Sixteen-byte groups -/

theorem setGroupWord_getElem (g : Block) (j : Fin 4) (v : Word) (k : Nat) (hk : k < 16) :
    (setGroupWord g j v)[k] = if k / 4 = j.val then byteOf v (k % 4) else g[k] := by
  simp [setGroupWord]

/-- A group's word just written reads back; the other words are as before. -/
theorem groupWord_setGroupWord (g : Block) (i j : Fin 4) (v : Word) :
    groupWord (setGroupWord g j v) i = if i = j then v else groupWord g i := by
  have hi := i.isLt
  simp only [groupWord, setGroupWord_getElem]
  rw [show 4 * i.val / 4 = i.val by omega, show (4 * i.val + 1) / 4 = i.val by omega,
    show (4 * i.val + 2) / 4 = i.val by omega, show (4 * i.val + 3) / 4 = i.val by omega,
    show 4 * i.val % 4 = 0 by omega, show (4 * i.val + 1) % 4 = 1 by omega,
    show (4 * i.val + 2) % 4 = 2 by omega, show (4 * i.val + 3) % 4 = 3 by omega]
  by_cases h : i = j
  · simp [h]
  · have hv : i.val ≠ j.val := fun hv => h (Fin.ext hv)
    simp [h, hv]

/-! ## PBUF words -/

/-- A byte after a window word is written (R43). -/
theorem read_setPbufWord {m : Memory} (hm : m.wf) (w : Nat) (v : Word) (k : Nat) :
    (setPbufWord m w v).read k = if k / 4 = w then byteOf v (k % 4) else m.read k := by
  rw [setPbufWord, read_writeBytes hm]
  by_cases hk : k / 4 = w
  · have h1 : 4 * w ≤ k := by omega
    have h2 : k - 4 * w = k % 4 := by omega
    have h3 : k % 4 < 4 := Nat.mod_lt _ (by omega)
    simp only [h1, h2, hk, if_true]
    rcases (by omega : k % 4 = 0 ∨ k % 4 = 1 ∨ k % 4 = 2 ∨ k % 4 = 3) with h | h | h | h <;>
      simp [h]
  · by_cases h1 : 4 * w ≤ k
    · have h2 : 4 ≤ k - 4 * w := by omega
      simp [h1, hk, List.getElem?_eq_none_iff.mpr (show [byteOf v 0, byteOf v 1, byteOf v 2,
        byteOf v 3].length ≤ k - 4 * w from h2)]
    · simp [h1, hk]

theorem setPbufWord_wf {m : Memory} (hm : m.wf) (w : Nat) (v : Word) : (setPbufWord m w v).wf :=
  writeBytes_wf hm _ _

theorem setPbufWord_below {m : Memory} {n w : Nat} (hm : m.below n) (v : Word)
    (h : 4 * w + 4 ≤ n) : (setPbufWord m w v).below n :=
  writeBytes_below hm (by simpa using h)

/-- A window word just written reads back; the other words are as before. -/
theorem pbufWord_setPbufWord {m : Memory} (hm : m.wf) (w u : Nat) (v : Word) :
    pbufWord (setPbufWord m w v) u = if u = w then v else pbufWord m u := by
  simp only [pbufWord, read_setPbufWord hm]
  rw [show 4 * u / 4 = u by omega, show (4 * u + 1) / 4 = u by omega,
    show (4 * u + 2) / 4 = u by omega, show (4 * u + 3) / 4 = u by omega,
    show 4 * u % 4 = 0 by omega, show (4 * u + 1) % 4 = 1 by omega,
    show (4 * u + 2) % 4 = 2 by omega, show (4 * u + 3) % 4 = 3 by omega]
  by_cases h : u = w <;> simp [h]

/-! ## The window -/

/-- A target of the window: a register below `0x100`, or a PBUF word inside the buffer. -/
theorem windowTarget_eq_pbufWord {n off w : Nat} (h : windowTarget n off = some (.pbufWord w)) :
    off % 4 = 0 ∧ off = 0x100 + 4 * w ∧ off < 0x100 + n := by
  unfold windowTarget at h
  split at h
  · cases h
  · rename_i h4
    split at h
    · obtain ⟨r, _, hr⟩ := Option.map_eq_some_iff.mp h
      cases hr
    · rename_i h100
      split at h
      · rename_i hn
        simp only [Option.some.injEq, Target.pbufWord.injEq] at h
        omega
      · cases h

end Sys2Proof.Machine
end

