-- ==== Sys2Proof/Laws/Ops.lean ====
section
/-! SUPPORT. What each shared operation can do, once: the engine's accesses to PBUF, the CTR
transform, the command decoder, and the host port. -/

namespace Sys2Proof.Machine

/-! ## Engine accesses (R48) -/

theorem memRead_eq_some {s : State} {a n : Nat} {d : List Byte} :
    memRead s a n = some d ↔ a + n ≤ s.cfg.pbufSize ∧ d = readBytes s.pbuf a n := by
  unfold memRead
  split <;> simp_all [eq_comm]

theorem memRead_of_le {s : State} {a n : Nat} (h : a + n ≤ s.cfg.pbufSize) :
    memRead s a n = some (readBytes s.pbuf a n) := if_pos h

theorem memWrite_eq_some {s t : State} {a : Nat} {v : List Byte} :
    memWrite s a v = some t ↔
      a + v.length ≤ s.cfg.pbufSize ∧ t = { s with pbuf := writeBytes s.pbuf a v } := by
  unfold memWrite
  split <;> simp_all [eq_comm]

theorem memWrite_of_le {s : State} {a : Nat} {v : List Byte} (h : a + v.length ≤ s.cfg.pbufSize) :
    memWrite s a v = some { s with pbuf := writeBytes s.pbuf a v } := if_pos h

/-- An engine write keeps the canonical form and stays inside PBUF. -/
theorem memWrite_keeps {s t : State} {a : Nat} {v : List Byte} (h : memWrite s a v = some t)
    (hw : s.pbuf.wf) (hb : s.pbuf.below s.cfg.pbufSize) :
    t.pbuf.wf ∧ t.pbuf.below s.cfg.pbufSize := by
  obtain ⟨hle, rfl⟩ := memWrite_eq_some.mp h
  exact ⟨writeBytes_wf hw a v, writeBytes_below hb hle⟩

theorem memRead32_of_le {s : State} {a : Nat} (h : a + 4 ≤ s.cfg.pbufSize) :
    memRead32 s a = some (le32 (s.pbuf.read a) (s.pbuf.read (a + 1)) (s.pbuf.read (a + 2))
      (s.pbuf.read (a + 3))) := by
  simp [memRead32, memRead_of_le h, readBytes]

/-! ## The CTR transform (R111, R113) -/

@[simp] theorem ctrXorFrom_length (rk : RoundKeys) (n : Block) (p : Nat) (d : List Byte) :
    (ctrXorFrom rk n p d).length = d.length := by
  induction d generalizing p with
  | nil => rfl
  | cons b ds ih => simp [ctrXorFrom, ih]

/-- Byte `k` of the output depends on byte `k` of the input and on its position alone. -/
theorem ctrXorFrom_getElem? (rk : RoundKeys) (n : Block) (p : Nat) (d : List Byte) (k : Nat) :
    (ctrXorFrom rk n p d)[k]? = d[k]?.map (· ^^^ keystreamByte rk n (p + k)) := by
  induction d generalizing p k with
  | nil => simp [ctrXorFrom]
  | cons b ds ih =>
    cases k with
    | zero => simp [ctrXorFrom]
    | succ k =>
      simp only [ctrXorFrom, List.getElem?_cons_succ, ih]
      rw [show p + 1 + k = p + (k + 1) by omega]

theorem ctrXor_of_le {rk : RoundKeys} {n : Block} {d : List Byte} (h : d.length ≤ 2 ^ 36) :
    ctrXor rk n d = some (ctrXorFrom rk n 0 d) := if_pos h

/-- A length held in a 32-bit register is inside the range R113 gives the function. -/
theorem word_le_ctrLimit (w : Word) : w.toNat ≤ 2 ^ 36 := by
  have := w.isLt
  omega

/-! ## The decoder (R61 to R63) -/

/-- Every mask of the table has 32 ones: a row selects its own word and no other. -/
theorem selects_table {r : OpcodeRow} (hr : r ∈ opcodeTable) (v : Word) :
    r.selects v = (v == r.word) := by
  have hm : ∀ r ∈ opcodeTable, r.mask = BitVec.allOnes 32 := by decide
  rw [OpcodeRow.selects, hm r hr, BitVec.and_allOnes]

/-- No two rows of the table select the same word. -/
theorem opcodeTable_words_differ :
    opcodeTable.Pairwise (fun a b => a.word ≠ b.word) := by decide

/-! ## The host port (R42 to R44) -/

theorem hostRead_refused {width off : Nat} {s : State}
    (h : admitted s.cfg.pbufSize width off = none) :
    hostRead width off s = .next (respond .busError s) := by simp [hostRead, h, refuseTransaction]

theorem hostRead_mapped {width off : Nat} {s : State} {t : Target}
    (h : admitted s.cfg.pbufSize width off = some t) :
    hostRead width off s = .next (respond (.data (readTarget s t)) s) := by simp [hostRead, h]

theorem hostWrite_refused {width off : Nat} {v : Word} {s : State}
    (h : admitted s.cfg.pbufSize width off = none) :
    hostWrite width off v s = .next (respond .busError s) := by
  simp [hostWrite, h, refuseTransaction]

theorem hostWrite_cmd {width off : Nat} {v : Word} {s : State}
    (h : admitted s.cfg.pbufSize width off = some (.reg .cmd)) :
    hostWrite width off v s = runCommand v (respond .accepted s) := by simp [hostWrite, h]

theorem hostWrite_stores {width off : Nat} {v : Word} {s : State} {t : Target}
    (h : admitted s.cfg.pbufSize width off = some t) (hc : t ≠ .reg .cmd) :
    hostWrite width off v s = .next (writeTarget (respond .accepted s) t v) := by
  unfold hostWrite
  rw [h]
  split <;> simp_all

theorem runCommand_ok {v : Word} {i : Instr} {s : State} (h : decode v = .ok i) :
    runCommand v s = exec i s := by simp [runCommand, h]

theorem runCommand_illegal {v : Word} {e : DecodeError} {s : State} (h : decode v = .error e) :
    runCommand v s = .next (raiseError .illegalCmd s) := by simp [runCommand, h]

/-- What a step is: nothing where the host issues nothing, else one host event. -/
theorem hostStep_cases (s : State) :
    (s.inputs = [] ∧ hostStep s = .next s) ∨
    ∃ e rest, s.inputs = e :: rest ∧ hostStep s = hostEvent e (withInputs rest s) := by
  unfold hostStep
  split
  · exact .inl ⟨‹_›, rfl⟩
  · exact .inr ⟨_, _, ‹_›, rfl⟩

/-- A host write of a mapped register changes at most that operand register; writes of `STATUS`,
`ERRCODE`, `ROUTE`, `BLK_OUT` and the storing half of `CMD` change nothing. -/
theorem writeReg_cases (s : State) (r : Reg) (v : Word) :
    writeReg s r v = s ∨
    (∃ b, writeReg s r v = { s with keyIn := b }) ∨ (∃ b, writeReg s r v = { s with blkIn := b }) ∨
    (∃ b, writeReg s r v = { s with nonce := b }) ∨ writeReg s r v = { s with pktLen := v } ∨
    writeReg s r v = { s with ctrOff := v } ∨ writeReg s r v = { s with ctrLen := v } ∨
    writeReg s r v = { s with hdrTo := v } ∨ writeReg s r v = { s with hdrFrom := v } ∨
    writeReg s r v = { s with hdrId := v } ∨ writeReg s r v = { s with hdrMisc := v } := by
  cases r <;> simp [writeReg]

end Sys2Proof.Machine
end

