-- ==== Sys2Proof/Laws/Commands.lean ====
section
/-! SUPPORT. Everything each command can do, once per meaning: which check it fails, or the one
successful state it reaches (`40_block_cipher.md` to `42_header_parser.md`, the commands' own rules). -/

namespace Sys2Proof.Machine

/-- The packet buffer after a CTRXOR whose range fits (R114). -/
def ctrxorBuffer (s : State) : Memory :=
  writeBytes s.pbuf s.ctrOff.toNat
    (ctrXorFrom s.rk s.nonce 0 (readBytes s.pbuf s.ctrOff.toNat s.ctrLen.toNat))

/-- The header words and the payload's range that a PARSEHDR loads (R124). -/
def loadHeader (s : State) : State :=
  { s with
    hdrTo := pbufWord s.pbuf 0
    hdrFrom := pbufWord s.pbuf 1
    hdrId := pbufWord s.pbuf 2
    hdrMisc := pbufWord s.pbuf 3
    ctrOff := 16
    ctrLen := s.pktLen - 16 }

theorem execEncblk_cases (s : State) :
    (statusKeyValid s.status = true ∧
      execEncblk s = .next (succeed { s with blkOut := cipher s.rk s.blkIn })) ∨
    (statusKeyValid s.status = false ∧ execEncblk s = .next (raiseError .noKey s)) := by
  unfold execEncblk
  cases statusKeyValid s.status <;> simp

theorem execCtrxor_of_fits {s : State} (hk : statusKeyValid s.status = true)
    (hr : s.ctrOff.toNat + s.ctrLen.toNat ≤ s.cfg.pbufSize) :
    execCtrxor s = .next (succeed { s with pbuf := ctrxorBuffer s }) := by
  unfold execCtrxor
  rw [if_neg (by simp [hk]), if_neg (Nat.not_lt.mpr hr), memRead_of_le hr]
  simp only
  rw [ctrXor_of_le (by simpa using word_le_ctrLimit s.ctrLen)]
  simp only
  rw [memWrite_of_le (by simpa using hr)]
  rfl

theorem execCtrxor_cases (s : State) :
    (statusKeyValid s.status = false ∧ execCtrxor s = .next (raiseError .noKey s)) ∨
    (statusKeyValid s.status = true ∧ s.cfg.pbufSize < s.ctrOff.toNat + s.ctrLen.toNat ∧
      execCtrxor s = .next (raiseError .range s)) ∨
    (statusKeyValid s.status = true ∧ s.ctrOff.toNat + s.ctrLen.toNat ≤ s.cfg.pbufSize ∧
      execCtrxor s = .next (succeed { s with pbuf := ctrxorBuffer s })) := by
  cases hk : statusKeyValid s.status with
  | false => exact .inl ⟨rfl, by simp [execCtrxor, hk]⟩
  | true =>
    by_cases hr : s.ctrOff.toNat + s.ctrLen.toNat ≤ s.cfg.pbufSize
    · exact .inr (.inr ⟨rfl, hr, execCtrxor_of_fits hk hr⟩)
    · exact .inr (.inl ⟨rfl, by omega, by simp [execCtrxor, hk, Nat.not_le.mp hr]⟩)

theorem execParsehdr_of_fits {s : State} (h : s.pktLen.toNat ≤ s.cfg.pbufSize)
    (h16 : 16 ≤ s.pktLen.toNat) : execParsehdr s = .next (succeed (loadHeader s)) := by
  unfold execParsehdr
  rw [if_neg (Nat.not_lt.mpr h), if_neg (Nat.not_lt.mpr h16), memRead32_of_le (by omega),
    memRead32_of_le (by omega), memRead32_of_le (by omega), memRead32_of_le (by omega)]
  rfl

theorem execParsehdr_cases (s : State) :
    (s.cfg.pbufSize < s.pktLen.toNat ∧ execParsehdr s = .next (raiseError .range s)) ∨
    (s.pktLen.toNat ≤ s.cfg.pbufSize ∧ s.pktLen.toNat < 16 ∧
      execParsehdr s = .next (raiseError .shortHeader s)) ∨
    (s.pktLen.toNat ≤ s.cfg.pbufSize ∧ 16 ≤ s.pktLen.toNat ∧
      execParsehdr s = .next (succeed (loadHeader s))) := by
  by_cases h : s.pktLen.toNat ≤ s.cfg.pbufSize
  · by_cases h16 : 16 ≤ s.pktLen.toNat
    · exact .inr (.inr ⟨h, h16, execParsehdr_of_fits h h16⟩)
    · refine .inr (.inl ⟨h, by omega, ?_⟩)
      unfold execParsehdr
      rw [if_neg (Nat.not_lt.mpr h), if_pos (by omega)]
  · refine .inl ⟨by omega, ?_⟩
    unfold execParsehdr
    rw [if_pos (by omega)]

/-- Every command answers a next state: an error that changes the record alone, or its own success. -/
theorem exec_cases (i : Instr) (s : State) :
    (∃ c, (c = .shortHeader ∨ c = .noKey ∨ c = .range) ∧ exec i s = .next (raiseError c s)) ∨
    (i = .setkey ∧ exec i s = .next (succeed
      { s with key := s.keyIn, rk := keyExpansion s.keyIn, status := setKeyValid s.status })) ∨
    (i = .encblk ∧ exec i s = .next (succeed { s with blkOut := cipher s.rk s.blkIn })) ∨
    (i = .ctrxor ∧ s.ctrOff.toNat + s.ctrLen.toNat ≤ s.cfg.pbufSize ∧
      exec i s = .next (succeed { s with pbuf := ctrxorBuffer s })) ∨
    (i = .parsehdr ∧ exec i s = .next (succeed (loadHeader s))) ∨
    (i = .buildnonce ∧
      exec i s = .next (succeed { s with nonce := buildNonce s.hdrId s.hdrFrom })) ∨
    (i = .calcroute ∧ exec i s = .next (succeed
      { s with route := packRoute (calcRouting (byteOf s.hdrMisc 0) s.hdrTo) })) := by
  cases i with
  | setkey => exact .inr (.inl ⟨rfl, rfl⟩)
  | encblk =>
    rcases execEncblk_cases s with ⟨-, h⟩ | ⟨-, h⟩
    · exact .inr (.inr (.inl ⟨rfl, h⟩))
    · exact .inl ⟨_, by simp, h⟩
  | ctrxor =>
    rcases execCtrxor_cases s with ⟨-, h⟩ | ⟨-, -, h⟩ | ⟨-, hr, h⟩
    · exact .inl ⟨_, by simp, h⟩
    · exact .inl ⟨_, by simp, h⟩
    · exact .inr (.inr (.inr (.inl ⟨rfl, hr, h⟩)))
  | parsehdr =>
    rcases execParsehdr_cases s with ⟨-, h⟩ | ⟨-, -, h⟩ | ⟨-, -, h⟩
    · exact .inl ⟨_, by simp, h⟩
    · exact .inl ⟨_, by simp, h⟩
    · exact .inr (.inr (.inr (.inr (.inl ⟨rfl, h⟩))))
  | buildnonce => exact .inr (.inr (.inr (.inr (.inr (.inl ⟨rfl, rfl⟩)))))
  | calcroute => exact .inr (.inr (.inr (.inr (.inr (.inr ⟨rfl, rfl⟩)))))

end Sys2Proof.Machine
end

