-- ==== Sys2Proof/Laws/PerInstr.lean ====
section
/-! SUPPORT. Statements made per instruction: the word an encoded command has
(`30_encoding.md` rules R60 and R62). -/

namespace Sys2Proof.Laws

/-- The encoder writes a well-formed command word: bits 31:8 zero, the opcode in bits 7:0. -/
def EncodedWord.Statement (i : Instr) : Prop :=
  wellFormedWord (encode i) = true ∧ zeroField (encode i) = 0 ∧ opcodeField (encode i) = opcodeOf i

theorem EncodedWord.setkey : EncodedWord.Statement .setkey := by unfold Statement; decide
theorem EncodedWord.encblk : EncodedWord.Statement .encblk := by unfold Statement; decide
theorem EncodedWord.ctrxor : EncodedWord.Statement .ctrxor := by unfold Statement; decide
theorem EncodedWord.parsehdr : EncodedWord.Statement .parsehdr := by unfold Statement; decide
theorem EncodedWord.buildnonce : EncodedWord.Statement .buildnonce := by unfold Statement; decide
theorem EncodedWord.calcroute : EncodedWord.Statement .calcroute := by unfold Statement; decide

end Sys2Proof.Laws
end

