-- ==== Sys2Proof/Laws/Step.lean ====
section
/-! SUPPORT. What one host event and one step can do, once: which transactions are admitted
(`20_memory.md` rules R41 and R44), and the eight forms of a step's result. -/

namespace Sys2Proof.Machine

/-- A step with an event pending is that event on the state without it. -/
theorem step_event (s : State) (e : HostEvent) (q : List HostEvent) :
    step { s with inputs := e :: q } = hostEvent e { s with inputs := q } := rfl

/-- The same, for a state that is not written as an update. -/
theorem step_of_inputs {s : State} {e : HostEvent} {q : List HostEvent} (h : s.inputs = e :: q) :
    step s = hostEvent e { s with inputs := q } := by
  simp only [step, hostStep, h, withInputs]

/-- A word of the PBUF window is admitted at every aligned offset inside it. -/
theorem admitted_window {n off : Nat} (h4 : off % 4 = 0) (h1 : 0x100 ≤ off) (h2 : off < 0x100 + n) :
    admitted n 32 off = some (.pbufWord ((off - 0x100) / 4)) := by
  simp [admitted, windowTarget, h4, h2, Nat.not_lt.mpr h1]

/-- A register is admitted at its offset. -/
theorem admitted_register {n off : Nat} {r : Reg} (h4 : off % 4 = 0) (h1 : off < 0x100)
    (h : registerAt off = some r) : admitted n 32 off = some (.reg r) := by
  simp [admitted, windowTarget, h4, h1, h]

/-- What is known of an admitted transaction. -/
theorem admitted_cases {n width off : Nat} {t : Target} (h : admitted n width off = some t) :
    width = 32 ∧ off % 4 = 0 ∧
      ((∃ r, t = .reg r ∧ off < 0x100 ∧ registerAt off = some r) ∨
        (t = .pbufWord ((off - 0x100) / 4) ∧ 0x100 ≤ off ∧ off < 0x100 + n)) := by
  unfold admitted windowTarget at h
  split at h
  · split at h
    · cases h
    · split at h
      · cases hr : registerAt off with
        | none => rw [hr] at h; cases h
        | some r =>
          rw [hr] at h; cases h
          exact ⟨‹_›, by omega, .inl ⟨r, rfl, ‹_›, rfl⟩⟩
      · split at h
        · cases h
          exact ⟨‹_›, by omega, .inr ⟨rfl, by omega, ‹_›⟩⟩
        · cases h
  · cases h

/-- `CMD` is at offset 0 and nowhere else. -/
theorem registerAt_cmd {off : Nat} (h1 : off < 0x100) (h : registerAt off = some .cmd) : off = 0 := by
  have table : ∀ o : Fin 256, registerAt o.val = some .cmd → o.val = 0 := by decide +kernel
  exact table ⟨off, h1⟩ h

/-- The parts of the state no register write of the host touches. -/
theorem writeReg_keeps (s : State) (r : Reg) (v : Word) :
    (writeReg s r v).status = s.status ∧ (writeReg s r v).errcode = s.errcode ∧
      (writeReg s r v).key = s.key ∧ (writeReg s r v).rk = s.rk ∧
      (writeReg s r v).route = s.route ∧ (writeReg s r v).blkOut = s.blkOut ∧
      (writeReg s r v).pbuf = s.pbuf ∧ (writeReg s r v).cfg = s.cfg ∧
      (writeReg s r v).inputs = s.inputs ∧ (writeReg s r v).response = s.response := by
  rcases writeReg_cases s r v with h | ⟨b, h⟩ | ⟨b, h⟩ | ⟨b, h⟩ | h | h | h | h | h | h | h <;>
    rw [h] <;> simp

/-- Everything one step can do. -/
theorem step_cases (s : State) :
    (s.inputs = [] ∧ step s = .next s) ∨
    (∃ d q, s.inputs = .reset d :: q ∧ step s = .next (resetEvent d { s with inputs := q })) ∨
    (∃ v q i, s.inputs = .write 32 0 v :: q ∧ decode v = .ok i ∧
      step s = exec i { s with inputs := q, response := .accepted }) ∨
    (∃ v q e, s.inputs = .write 32 0 v :: q ∧ decode v = .error e ∧
      step s = .next (raiseError .illegalCmd { s with inputs := q, response := .accepted })) ∨
    (∃ w off q r, s.inputs = .read w off :: q ∧
      step s = .next { s with inputs := q, response := r }) ∨
    (∃ w off v q, s.inputs = .write w off v :: q ∧
      step s = .next { s with inputs := q, response := .busError }) ∨
    (∃ off v q r, s.inputs = .write 32 off v :: q ∧ r ≠ .cmd ∧ off < 0x100 ∧
      registerAt off = some r ∧
      step s = .next (writeReg { s with inputs := q, response := .accepted } r v)) ∨
    (∃ off v q, s.inputs = .write 32 off v :: q ∧ off % 4 = 0 ∧ 0x100 ≤ off ∧
      off < 0x100 + s.cfg.pbufSize ∧
      step s = .next { s with
        inputs := q
        response := .accepted
        pbuf := setPbufWord s.pbuf ((off - 0x100) / 4) v }) := by
  cases hi : s.inputs with
  | nil => exact .inl ⟨rfl, by simp only [step, hostStep, hi]⟩
  | cons e q =>
    right
    rw [step_of_inputs hi]
    cases e with
    | reset d => exact .inl ⟨_, _, rfl, rfl⟩
    | read w off =>
      refine .inr (.inr (.inr (.inl ?_)))
      cases ha : admitted s.cfg.pbufSize w off with
      | none => exact ⟨_, _, _, _, rfl, hostRead_refused (s := { s with inputs := q }) ha⟩
      | some t => exact ⟨_, _, _, _, rfl, hostRead_mapped (s := { s with inputs := q }) ha⟩
    | write w off v =>
      cases ha : admitted s.cfg.pbufSize w off with
      | none =>
        exact .inr (.inr (.inr (.inr (.inl
          ⟨_, _, _, _, rfl, hostWrite_refused (s := { s with inputs := q }) ha⟩))))
      | some t =>
        obtain ⟨rfl, h4, ⟨r, rfl, h1, hr⟩ | ⟨rfl, h1, h2⟩⟩ := admitted_cases ha
        · by_cases hc : r = .cmd
          · subst hc
            obtain rfl := registerAt_cmd h1 hr
            have hrun := hostWrite_cmd (s := { s with inputs := q }) (v := v) ha
            cases hd : decode v with
            | ok i => exact .inr (.inl ⟨_, _, _, rfl, hd, hrun.trans (runCommand_ok hd)⟩)
            | error e => exact .inr (.inr (.inl ⟨_, _, _, rfl, hd, hrun.trans (runCommand_illegal hd)⟩))
          · exact .inr (.inr (.inr (.inr (.inr (.inl ⟨_, _, _, r, rfl, hc, h1, hr,
              hostWrite_stores (s := { s with inputs := q }) ha (by simpa using hc)⟩)))))
        · exact .inr (.inr (.inr (.inr (.inr (.inr ⟨_, _, _, rfl, h4, h1, h2,
            hostWrite_stores (s := { s with inputs := q }) ha (by simp)⟩)))))

end Sys2Proof.Machine
end

