-- ==== Sys2Proof/Tests/Slice0.lean ====
section
/-! SUPPORT. Tests of the model against the vectors of `95_test_vectors.md` and the examples beside the
rules (each test names its source), and one witness or more per statement that has hypotheses. -/

namespace Sys2Proof.Tests

open Sys2Proof Sys2Proof.Machine

/-! ## Helpers -/

/-- The sixteen bytes of a 32-digit number, first pair first: the notation of `95_test_vectors.md`. -/
def hex (n : Nat) : Block :=
  Vector.ofFn fun k : Fin 16 => BitVec.ofNat 8 (n >>> (8 * (15 - k.val)))

/-- Whether an outcome is a next state of which `p` holds. -/
def nextIs (o : Host.Outcome State Fault Refusal) (p : State → Bool) : Bool :=
  match o with
  | .next t => p t
  | .fault _ => false
  | .refused _ => false

/-- The reset state with one host event pending. -/
def withEvent (e : HostEvent) : State := { State.reset with inputs := [e] }

/-- The round keys of V2. -/
def roundKeysV2 : RoundKeys :=
  #v[hex 0x000102030405060708090a0b0c0d0e0f,
    hex 0xd6aa74fdd2af72fadaa678f1d6ab76fe,
    hex 0xb692cf0b643dbdf1be9bc5006830b3fe,
    hex 0xb6ff744ed2c2c9bf6c590cbf0469bf41,
    hex 0x47f7f7bc95353e03f96c32bcfd058dfd,
    hex 0x3caaa3e8a99f9deb50f3af57adf622aa,
    hex 0x5e390f7df7a69296a7553dc10aa31f6b,
    hex 0x14f9701ae35fe28c440adf4d4ea9c026,
    hex 0x47438735a41c65b9e016baf4aebf7ad2,
    hex 0x549932d1f08557681093ed9cbe2c974e,
    hex 0x13111d7fe3944a17f307a78b4d2b30c5]

/-- The reset state after a SETKEY of the key of V2, its result record cleared. -/
def keyed : State :=
  { State.reset with
    status := 0x00000001
    key := (hex 0x000102030405060708090a0b0c0d0e0f)
    rk := roundKeysV2 }

/-- The nonce of V10: packet id 3, from address 2. -/
def nonceV10 : Block := (hex 0x03000000000000000200000000000000)

/-- The reset state with a packet in PBUF and its length in `PKT_LEN`. -/
def withPacket (bs : List Byte) : State :=
  { State.reset with pbuf := bytesMemory 0 bs, pktLen := BitVec.ofNat 32 bs.length }

/-! ## Decoding (R60 to R63): a word written out bit by bit for every command -/

theorem test_decode_setkey :
    decode 0b00000000000000000000000000000001#32 = .ok .setkey := by decide
theorem test_decode_encblk :
    decode 0b00000000000000000000000000000010#32 = .ok .encblk := by decide
theorem test_decode_ctrxor :
    decode 0b00000000000000000000000000000011#32 = .ok .ctrxor := by decide
theorem test_decode_parsehdr :
    decode 0b00000000000000000000000000000100#32 = .ok .parsehdr := by decide
theorem test_decode_buildnonce :
    decode 0b00000000000000000000000000000101#32 = .ok .buildnonce := by decide
theorem test_decode_calcroute :
    decode 0b00000000000000000000000000000110#32 = .ok .calcroute := by decide

/-- The decoder asked with the opcode table's numbering, on every row of `opcode_table.json`. -/
theorem test_decodeTableWord :
    [decodeTableWord 32 1, decodeTableWord 32 2, decodeTableWord 32 3, decodeTableWord 32 4,
      decodeTableWord 32 5, decodeTableWord 32 6] =
    [some .setkey, some .encblk, some .ctrxor, some .parsehdr, some .buildnonce,
      some .calcroute] := by decide

/-- R62: the zero word, opcode 7, a command with a bit of 31:8 set, and the all-ones word. -/
theorem test_decode_illegal :
    decode 0x00000000 = .error (.illegalCommand 0x00000000) ∧
    decode 0x00000007 = .error (.illegalCommand 0x00000007) ∧
    decode 0x00000101 = .error (.illegalCommand 0x00000101) ∧
    decode 0xFFFFFFFF = .error (.illegalCommand 0xFFFFFFFF) ∧
    decodeTableWord 32 0 = none := by decide

/-! ## WellFormed: an ill-formed term per check, refused -/

theorem test_wellFormed_commands :
    [Instr.setkey, .encblk, .ctrxor, .parsehdr, .buildnonce, .calcroute].all
      (fun i => wellFormedWord (encode i)) = true := by decide
theorem test_wellFormed_refuses_zero_field :
    zeroFieldOk 0x00000101 = false ∧ wellFormedWord 0x00000101 = false := by decide
theorem test_wellFormed_refuses_opcode_zero :
    opcodeOk 0x00000000 = false ∧ wellFormedWord 0x00000000 = false := by decide
theorem test_wellFormed_refuses_opcode_seven :
    opcodeOk 0x00000007 = false ∧ wellFormedWord 0x00000007 = false := by decide
/-- R5: a size that is no multiple of 4, one below 16, one above 2^31, and a misaligned `BASE`. -/
theorem test_config_refuses :
    ¬ ({ pbufSize := 18, base := 0 } : Config).Valid ∧ ¬ ({ pbufSize := 12, base := 0 } : Config).Valid ∧
    ¬ ({ pbufSize := 2 ^ 31 + 4, base := 0 } : Config).Valid ∧
    ¬ ({ pbufSize := 256, base := 2 } : Config).Valid ∧ Config.examples.Valid := by decide
/-- The canonical form refuses an unordered list, a repeated index and a listed unlisted value. -/
theorem test_memory_wf_refuses :
    ¬ Memory.wf [(4, 1), (2, 1)] ∧ ¬ Memory.wf [(4, 1), (4, 2)] ∧ ¬ Memory.wf [(4, 0)] ∧
    Memory.wf [(2, 1), (4, 1)] ∧ Memory.wf State.reset.pbuf := by decide

/-! ## Byte order and memory (R45, R64) -/

/-- R45's example: the key bytes `00 01 … 0f` are `KEY_IN0 = 0x03020100`, …, `KEY_IN3 = 0x0F0E0D0C`. -/
theorem test_groupWord :
    groupWord (hex 0x000102030405060708090a0b0c0d0e0f) 0 = 0x03020100 ∧
    groupWord (hex 0x000102030405060708090a0b0c0d0e0f) 3 = 0x0F0E0D0C := by decide
/-- Writing back what an unlisted byte reads as removes the entry; equal buffers are equal lists. -/
theorem test_memory_canonical :
    (Memory.write [] 5 0x7F).write 5 0x00 = [] ∧
    (Memory.write [] 5 0x7F).write 3 0x01 = (Memory.write [] 3 0x01).write 5 0x7F := by decide

/-! ## AES (V4 to V7, and the examples of R80 to R89) -/

/-- V4. -/
theorem test_gmul :
    gmul 0x57 0x83 = 0xc1 ∧ gmul 0x57 0x13 = 0xfe ∧ gmul 0xff 0x03 = 0x1a ∧ gmul 0x53 0xca = 0x01 := by
  decide
/-- V5, and R82's demand to hold the table against the definition, here at V5's entries. -/
theorem test_sbox :
    [sbox 0x00, sbox 0x01, sbox 0x02, sbox 0x10, sbox 0x53, sbox 0x7f, sbox 0x80, sbox 0x9a, sbox 0xc9,
      sbox 0xfe, sbox 0xff] =
      [0x63, 0x7c, 0x77, 0xca, 0xed, 0xd2, 0xcd, 0xb8, 0xdd, 0xbb, 0x16] ∧
    sboxAffine 0xca = sbox 0x53 ∧ sboxAffine 0x8d = sbox 0x02 := by decide
/-- V6. -/
theorem test_shiftRows :
    shiftRows (hex 0x000102030405060708090a0b0c0d0e0f) =
      (hex 0x00050a0f04090e03080d02070c01060b) := by decide
/-- V7, the four columns of R89's examples. -/
theorem test_mixColumn :
    mixColumn #v[0xdb, 0x13, 0x53, 0x45] = #v[0x8e, 0x4d, 0xa1, 0xbc] ∧
    mixColumn #v[0xf2, 0x0a, 0x22, 0x5c] = #v[0x9f, 0xdc, 0x58, 0x9d] ∧
    mixColumn #v[0x01, 0x01, 0x01, 0x01] = #v[0x01, 0x01, 0x01, 0x01] ∧
    mixColumn #v[0xd4, 0xbf, 0x5d, 0x30] = #v[0x04, 0x66, 0x81, 0xe5] := by decide

/-! ## The commands -/

/-- R92's worked example and V2: SETKEY of the key `00 01 … 0f`. -/
theorem test_setkey :
    nextIs (exec .setkey { State.reset with keyIn := (hex 0x000102030405060708090a0b0c0d0e0f) })
      (fun t => t.status == 0x00000003 && t.errcode == 0 && t.rk == roundKeysV2 &&
        t.key == (hex 0x000102030405060708090a0b0c0d0e0f)) = true := by
  decide +kernel
/-- V20: SETKEY in the reset state, `RK[1]` of the zero key. -/
theorem test_setkey_after_reset :
    nextIs (step (State.reset.withFetchWord 32 1))
      (fun t => t.status == 0x00000003 && t.errcode == 0 &&
        t.rk[1] == (hex 0x62636363626363636263636362636363)) = true := by
  decide +kernel
/-- V1, the source's FIPS-197 vector, and R93's worked example. -/
theorem test_encblk :
    nextIs (exec .encblk { keyed with blkIn := (hex 0x00112233445566778899aabbccddeeff) })
      (fun t => t.status == 0x00000003 &&
        t.blkOut == (hex 0x69c4e0d86a7b0430d8cdb78070b4c55a)) = true := by
  decide +kernel
/-- V20: ENCBLK in the reset state. -/
theorem test_encblk_no_key :
    nextIs (step (State.reset.withFetchWord 32 2))
      (fun t => t.status == 0 && t.errcode == 2 && t.blkOut == zeroBlock) = true := by decide
/-- V12, its first two bytes; the byte behind the range is not touched. -/
theorem test_ctrxor :
    nextIs (exec .ctrxor { keyed with
        nonce := nonceV10, pbuf := bytesMemory 16 [0x08, 0x01, 0x12], ctrOff := 16, ctrLen := 2 })
      (fun t => t.status == 0x00000003 && t.pbuf == [(16, 0x8f), (17, 0x0a), (18, 0x12)]) = true := by
  decide +kernel
/-- R114 and R147: no key is reported before a range that does not fit; then the range, unwrapped. -/
theorem test_ctrxor_checks :
    nextIs (exec .ctrxor { State.reset with ctrOff := 0xFFFFFFFF, ctrLen := 1 })
      (fun t => t.status == 0 && t.errcode == 2) = true ∧
    nextIs (exec .ctrxor { keyed with ctrOff := 0xFFFFFFFF, ctrLen := 1 })
      (fun t => t.status == 1 && t.errcode == 4) = true := by decide
/-- V15d: PARSEHDR of a 20-byte packet. -/
theorem test_parsehdr :
    nextIs (exec .parsehdr (withPacket ((hex 0xefbeadde0df0adbaefcdab89070a0b0c).toList ++ [1, 2, 3, 4])))
      (fun t => t.hdrTo == 0xDEADBEEF && t.hdrFrom == 0xBAADF00D && t.hdrId == 0x89ABCDEF &&
        t.hdrMisc == 0x0C0B0A07 && t.ctrOff == 16 && t.ctrLen == 4 && t.status == 2) = true := by decide
/-- R124 corner case (b) and R147: 15 bytes are short, 257 bytes are out of range. -/
theorem test_parsehdr_checks :
    nextIs (exec .parsehdr { State.reset with pktLen := 15 })
      (fun t => t.status == 0 && t.errcode == 1 && t.ctrOff == 0) = true ∧
    nextIs (exec .parsehdr { State.reset with pktLen := 257 })
      (fun t => t.status == 0 && t.errcode == 4 && t.ctrOff == 0) = true := by decide
/-- V16b, R125's worked example. -/
theorem test_buildnonce :
    nextIs (exec .buildnonce { State.reset with hdrId := 0xA1B2C3D4, hdrFrom := 0x12345678 })
      (fun t => t.nonce == (hex 0xd4c3b2a1000000007856341200000000) && t.status == 2) = true := by decide
/-- V16c. -/
theorem test_buildNonce_function :
    buildNonce 0x89ABCDEF 0xBAADF00D = (hex 0xefcdab89000000000df0adba00000000) := by decide
/-- V17d and V17h: underflow is flagged and the command succeeds. -/
theorem test_calcroute_underflow :
    nextIs (exec .calcroute { State.reset with hdrMisc := 0x07, hdrTo := 0xDEADBEEF })
      (fun t => t.route == 0x00F90307 && t.status == 2) = true ∧
    nextIs (exec .calcroute { State.reset with hdrMisc := 0x43 })
      (fun t => t.route == 0x00FF0323) = true := by decide
/-- V17c (R126's worked example), V17f and V17g. -/
theorem test_calcroute :
    nextIs (exec .calcroute { State.reset with hdrMisc := 0x00001F61, hdrTo := 0xFFFFFFFF })
      (fun t => t.route == 0x00020031) = true ∧
    nextIs (exec .calcroute { State.reset with hdrMisc := 0x332211FF, hdrTo := 1 })
      (fun t => t.route == 0x00000177) = true ∧
    nextIs (exec .calcroute { State.reset with hdrMisc := 0xE0, hdrTo := 0xFFFFFFFE })
      (fun t => t.route == 0x00070170) = true := by decide
/-- V10: the index is big-endian at bytes 12 to 15. -/
theorem test_counterBlock :
    counterBlock nonceV10 0x01020304 = (hex 0x03000000000000000200000001020304) ∧
    counterBlock nonceV10 0xFFFFFFFF = (hex 0x030000000000000002000000ffffffff) := by decide

/-! ## The host port and reset (R43, R44, R160; V19, V20) -/

/-- V20: the zero word written to `CMD`. -/
theorem test_illegal_command :
    nextIs (step (withEvent (.write 32 0x000 0))) (fun t => t.status == 0 && t.errcode == 3) = true := by
  decide
/-- R43 and R11: `KEY_IN` is stored and reads back as 0. -/
theorem test_key_in_write_only :
    nextIs (step (withEvent (.write 32 0x024 0x07060504)))
      (fun t => t.keyIn == (hex 0x00000000040506070000000000000000)) = true ∧
    nextIs (step { State.reset with keyIn := nonceV10, inputs := [.read 32 0x020] })
      (fun t => t.response == .data 0) = true := by decide
/-- R44: a misaligned, a narrow and an unmapped access. -/
theorem test_bus_error :
    nextIs (step (withEvent (.read 32 0x002))) (fun t => t.response == .busError) = true ∧
    nextIs (step (withEvent (.write 8 0x00C 5)))
      (fun t => t.response == .busError && t.pktLen == 0) = true ∧
    nextIs (step (withEvent (.read 32 0x01C))) (fun t => t.response == .busError) = true := by decide
/-- R43: the window's first and last word at `PBUF_SIZE` 256; the next offset is unmapped. -/
theorem test_window :
    nextIs (step (withEvent (.write 32 0x1FC 0x0D0C0B0A)))
      (fun t => t.pbuf == [(252, 0x0A), (253, 0x0B), (254, 0x0C), (255, 0x0D)]) = true ∧
    nextIs (step (withEvent (.write 32 0x200 1)))
      (fun t => t.pbuf == [] && t.response == .busError) = true := by decide
/-- R160: a reset clears the registers and takes its draw for the unspecified cells. -/
theorem test_reset_event :
    nextIs (step { keyed with
        pktLen := 7, inputs := [.reset { key := nonceV10, rk := roundKeysV2, pbuf := [1, 0, 2] }] })
      (fun t => t.pktLen == 0 && t.status == 0 && t.key == nonceV10 &&
        t.pbuf == [(0, 1), (2, 2)]) = true := by decide

/-! ## Witnesses: concrete states and operands that meet each statement's hypotheses -/

theorem witness_IllegalWordsRaiseIllegalCommand :
    ((0x00000101 : Word).extractLsb' 8 24 ≠ 0) ∧ ((0x00000000 : Word).extractLsb' 0 8 = 0) ∧
    (7 ≤ ((0x00000007 : Word).extractLsb' 0 8).toNat) ∧
    (7 ≤ ((0x000000FF : Word).extractLsb' 0 8).toNat) ∧
    ¬ (7 ≤ ((0x00000006 : Word).extractLsb' 0 8).toNat) := by decide
theorem witness_StepRunsTheDecodedCommand :
    (withEvent (.write 32 0x000 6)).inputs = .write 32 0x000 6 :: [] ∧ decode 6 = .ok .calcroute := by
  decide
theorem witness_EncblkEncryptsTheBlock :
    keyed.status.getLsbD 0 = true ∧ State.reset.status.getLsbD 0 = false := by decide
theorem witness_SboxIsInverseThenAffine : (0x53 : Byte) ≠ 0 ∧ gmul 0x53 0xca = 1 := by decide
theorem witness_RoundConstantsAndWordOperations : 1 ≤ 1 ∧ 1 ≤ 9 := by decide
/-- The words of any key's schedule, and the first and last step in each of the two cases. -/
theorem witness_KeyScheduleRecurrence (K : Block) :
    (∃ w : Nat → Quad, ∀ (r : Fin 11) (c : Fin 4),
      w (4 * r.val + c.val) = quadOf (keyExpansion K)[r] c) ∧
    (4 ≤ 4 ∧ 4 ≤ 43 ∧ 4 % 4 = 0) ∧ (4 ≤ 40 ∧ 40 ≤ 43 ∧ 40 % 4 = 0) ∧ (4 ≤ 43 ∧ 43 % 4 ≠ 0) := by
  refine ⟨⟨fun j => quadOf (keyExpansion K)[Fin.ofNat 11 (j / 4)] (Fin.ofNat 4 (j % 4)),
    fun r c => ?_⟩, by decide, by decide, by decide⟩
  have hr : Fin.ofNat 11 ((4 * r.val + c.val) / 4) = r := by
    apply Fin.ext
    simp only [Fin.ofNat]
    omega
  have hc : Fin.ofNat 4 ((4 * r.val + c.val) % 4) = c := by
    apply Fin.ext
    simp only [Fin.ofNat]
    omega
  simp only [hr, hc]
/-- The states of R90's loop for any schedule and block. -/
def loopState (rk : RoundKeys) (x : Block) : Nat → Block
  | 0 => addRoundKey x rk[0]
  | r + 1 => addRoundKey (mixColumns (shiftRows (subBytes (loopState rk x r)))) rk[Fin.ofNat 11 (r + 1)]
theorem witness_CipherRunsTheTenRounds (rk : RoundKeys) (x : Block) :
    ∃ st : Nat → Block, st 0 = addRoundKey x rk[0] ∧ ∀ r : Fin 9, st (r.val + 1) =
      addRoundKey (mixColumns (shiftRows (subBytes (st r.val)))) rk[r.val + 1] := by
  refine ⟨loopState rk x, rfl, fun r => ?_⟩
  have hr : (Fin.ofNat 11 (r.val + 1)).val = r.val + 1 := by
    simp only [Fin.ofNat]
    omega
  simp only [loopState, Fin.getElem_fin, hr]
theorem witness_CtrXorByteByByte :
    ([0x08, 0x01] : List Byte).length ≤ 2 ^ 36 ∧ ([0x08, 0x01] : List Byte)[1]? = some 0x01 := by decide
theorem witness_CtrXorProperties :
    ([0x08, 0x01] : List Byte).length ≤ 2 ^ 36 ∧ 0 ≤ ([0x08, 0x01] : List Byte).length ∧
    2 ≤ ([0x08, 0x01] : List Byte).length ∧
    (∃ n' : Block, n' ≠ nonceV10 ∧ ∀ k : Fin 12, n'[k.val] = nonceV10[k.val]) ∧
    ([0x08, 0x01] : List Byte)[0]? = some 0x08 := by
  refine ⟨by decide, by decide, by decide, ⟨(hex 0x030000000000000002000000deadbeef), ?_⟩, by decide⟩
  decide
theorem witness_BlockIndexNeverWraps :
    2 ^ 36 < (List.replicate (2 ^ 36 + 1) (0 : Byte)).length ∧
    (State.reset.cfg.Valid ∧ (256 : Word).toNat + (0 : Word).toNat ≤ State.reset.cfg.pbufSize ∧
      255 < (256 : Word).toNat) ∧
    ({ pbufSize := 2 ^ 31, base := 0 } : Config).Valid := by
  refine ⟨?_, by decide, by decide⟩
  rw [List.length_replicate]
  omega
theorem witness_CtrxorTransformsTheRange :
    State.reset.status.getLsbD 0 = false ∧ keyed.status.getLsbD 0 = true ∧
    (1 : Word).toNat + (256 : Word).toNat > keyed.cfg.pbufSize ∧
    (0xFFFFFFFF : Word).toNat + (1 : Word).toNat > keyed.cfg.pbufSize ∧
    (0 : Word).toNat + (256 : Word).toNat ≤ keyed.cfg.pbufSize ∧ keyed.pbuf.wf := by decide
theorem witness_CtrxorTwiceRestoresTheBuffer :
    keyed.status.getLsbD 0 = true ∧
    (16 : Word).toNat + (240 : Word).toNat ≤ keyed.cfg.pbufSize ∧ (bytesMemory 16 [8, 0, 2]).wf := by
  decide
theorem witness_CtrxorEmptyRangeSucceeds :
    keyed.status.getLsbD 0 = true ∧ keyed.ctrLen = 0 ∧ (256 : Word).toNat ≤ keyed.cfg.pbufSize := by
  decide
theorem witness_CtrxorIgnoresTheNonceTail :
    (∀ k : Fin 12, ((hex 0x030000000000000002000000deadbeef) : Block)[k.val] =
      ({ keyed with nonce := nonceV10 } : State).nonce[k.val]) ∧
    ∃ t, exec .ctrxor { keyed with nonce := nonceV10 } = .next t :=
  ⟨by decide, _, execCtrxor_of_fits (by decide) (by decide)⟩
theorem witness_ParseHeaderReadsSevenFields :
    (List.replicate 15 (1 : Byte)).length < 16 ∧ 16 ≤ (List.replicate 16 (1 : Byte)).length := by decide
theorem witness_ParsehdrLoadsTheHeader :
    (257 : Word).toNat > State.reset.cfg.pbufSize ∧
    ((15 : Word).toNat ≤ State.reset.cfg.pbufSize ∧ (15 : Word).toNat < 16) ∧
    ((16 : Word).toNat ≤ State.reset.cfg.pbufSize ∧ 16 ≤ (16 : Word).toNat) ∧
    ((256 : Word).toNat ≤ State.reset.cfg.pbufSize ∧ 16 ≤ (256 : Word).toNat) := by decide
theorem witness_ParsehdrIsParseHeaderOfThePacket :
    (withPacket (List.replicate 20 1)).pktLen.toNat ≤ (withPacket (List.replicate 20 1)).cfg.pbufSize ∧
    16 ≤ (withPacket (List.replicate 20 1)).pktLen.toNat := by decide
theorem witness_NonceComesFromThePacketBytes :
    (withPacket (List.replicate 16 1)).pktLen.toNat ≤ (withPacket (List.replicate 16 1)).cfg.pbufSize ∧
    16 ≤ (withPacket (List.replicate 16 1)).pktLen.toNat := by decide
theorem witness_SkipCountUnderflowIsFlagged :
    ((((0x63 : Byte) >>> 5) &&& 0x07).toNat ≥ ((0x63 : Byte) &&& 0x07).toNat) ∧
    ((((0x07 : Byte) >>> 5) &&& 0x07).toNat < ((0x07 : Byte) &&& 0x07).toNat) ∧
    ((((0x43 : Byte) >>> 5) &&& 0x07).toNat < ((0x43 : Byte) &&& 0x07).toNat) := by decide
theorem witness_UninterpretedHeaderBitsAreIgnored :
    (0x33221118 : Word) &&& 0x000000E7#32 = State.reset.hdrMisc &&& 0x000000E7#32 ∧
    ∃ t, exec .calcroute State.reset = .next t := ⟨by decide, _, rfl⟩
theorem witness_CommandsSucceedOrRaise :
    (withEvent (.write 32 0x000 1)).inputs = .write 32 0x000 1 :: [] ∧
    (withEvent (.write 32 0x000 0)).inputs = .write 32 0x000 0 :: [] := by decide
/-- An illegal word, and a command without a key. -/
theorem witness_FailedCommandChangesOnlyTheRecord :
    nextIs (step (withEvent (.write 32 0x000 0x101))) (fun t => !t.status.getLsbD 1) = true ∧
    nextIs (step (withEvent (.write 32 0x000 3))) (fun t => !t.status.getLsbD 1) = true := by decide
/-- Each of the four checks is the one that decides, and none. -/
theorem witness_ErrorsAreReportedInOrder :
    nextIs (step (withEvent (.write 32 0x000 7))) (fun t => t.errcode == 3) = true ∧
    nextIs (step (withEvent (.write 32 0x000 2))) (fun t => t.errcode == 2) = true ∧
    nextIs (step { State.reset with pktLen := 257, inputs := [.write 32 0x000 4] })
      (fun t => t.errcode == 4) = true ∧
    nextIs (step (withEvent (.write 32 0x000 4))) (fun t => t.errcode == 1) = true ∧
    nextIs (step (withEvent (.write 32 0x000 6))) (fun t => t.errcode == 0) = true := by decide
/-- A read, a write of an operand register, a window write and a refused transaction. -/
theorem witness_RecordChangesOnlyAtCommandsAndReset :
    [HostEvent.read 32 0x004, .write 32 0x00C 7, .write 32 0x100 7, .write 16 0x000 1].all (fun e =>
      nextIs (step { keyed with errcode := 4, inputs := [e] })
        (fun t => t.status == 1 && t.errcode == 4)) = true ∧
    (∀ v, HostEvent.write 16 0x000 1 ≠ .write 32 0x000 v) ∧
    (∀ d, HostEvent.write 16 0x000 1 ≠ .reset d) := by
  refine ⟨by decide, fun v h => ?_, fun d h => ?_⟩ <;> cases h
theorem witness_CommandsWriteOnlyTheirDestinations :
    (∃ t, exec .setkey State.reset = .next t) ∧ (∃ t, exec .encblk State.reset = .next t) ∧
    (∃ t, exec .ctrxor State.reset = .next t) ∧ (∃ t, exec .parsehdr State.reset = .next t) ∧
    (∃ t, exec .buildnonce State.reset = .next t) ∧ (∃ t, exec .calcroute State.reset = .next t) :=
  ⟨⟨_, rfl⟩, ⟨_, rfl⟩, ⟨_, rfl⟩, ⟨_, rfl⟩, ⟨_, rfl⟩, ⟨_, rfl⟩⟩
theorem witness_OnlySetkeyAndResetWriteTheKeyStore :
    (∃ t, step State.reset = .next t) ∧ (∃ t, step (withEvent (.write 32 0x000 1)) = .next t) ∧
    (∃ t, step (withEvent (.reset { key := nonceV10, rk := roundKeysV2, pbuf := [] })) = .next t) :=
  ⟨⟨_, rfl⟩, ⟨_, rfl⟩, ⟨_, rfl⟩⟩
/-- A step that sets `KEY_VALID`, and one that clears it. -/
theorem witness_KeyValidSetBySetkeyClearedByReset :
    (State.reset.status.getLsbD 0 = false ∧
      nextIs (exec .setkey State.reset) (fun t => t.status.getLsbD 0) = true) ∧
    keyed.status.getLsbD 0 = true ∧
      nextIs (step { keyed with
        inputs := [.reset { key := zeroBlock, rk := zeroRoundKeys, pbuf := [] }] })
        (fun t => !t.status.getLsbD 0) = true := by decide
theorem witness_KeyMaterialFlowsOnlyThroughTheCipher :
    (∃ t, step (withEvent (.read 32 0x020)) = .next t) ∧
    (∀ q, (withEvent (.read 32 0x020)).inputs ≠ .write 32 0x000 0x00000002#32 :: q) ∧
    (∀ q, (withEvent (.read 32 0x020)).inputs ≠ .write 32 0x000 0x00000003#32 :: q) := by
  refine ⟨⟨_, rfl⟩, fun q h => ?_, fun q h => ?_⟩ <;> cases h
/-- Rows of each list, a legal and an illegal word, and the first and last word of the window. -/
theorem witness_TransactionsFollowTheRegisterMap :
    readWriteRegisters.map (·.offset) =
      [0x00C, 0x010, 0x014, 0x060, 0x064, 0x068, 0x06C, 0x030, 0x034, 0x038, 0x03C,
       0x050, 0x054, 0x058, 0x05C] ∧
    readOnlyRegisters.map (·.offset) = [0x004, 0x008, 0x018, 0x040, 0x044, 0x048, 0x04C] ∧
    decode 5 = .ok .buildnonce ∧ decode 9 = .error (.illegalCommand 9) ∧
    0x100 + 4 * 0 < 0x100 + State.reset.cfg.pbufSize ∧
    0x100 + 4 * 63 < 0x100 + State.reset.cfg.pbufSize ∧ State.reset.pbuf.wf := by decide
/-- The ends of each of the four ranges. -/
theorem witness_ReadReturnsTheLatestWrite :
    State.reset.BufferOk ∧ State.reset.cfg.Valid ∧
    [0x00C, 0x014, 0x030, 0x03C, 0x050, 0x06C, 0x100, 0x1FC].all (fun off =>
      decide (off % 4 = 0 ∧
        ((0x00C ≤ off ∧ off ≤ 0x014) ∨ (0x030 ≤ off ∧ off ≤ 0x03C) ∨ (0x050 ≤ off ∧ off ≤ 0x06C) ∨
          (0x100 ≤ off ∧ off < 0x100 + State.reset.cfg.pbufSize)))) = true := by decide
/-- Refused and admitted offsets at the ends of each range: the answer is as the clause says. -/
theorem witness_BusErrorChangesNoState :
    [(31, 0x000), (64, 0x100), (32, 0x001), (32, 0x1FF), (32, 0x01C), (32, 0x070), (32, 0x0FC),
      (32, 0x200)].all (fun (w, off) =>
        decide (w ≠ 32 ∨ off % 4 ≠ 0 ∨ off = 0x01C ∨ (0x070 ≤ off ∧ off < 0x100) ∨
          0x100 + State.reset.cfg.pbufSize ≤ off) &&
        nextIs (step (withEvent (.read w off))) (fun t => t.response == .busError)) = true ∧
    [0x000, 0x018, 0x020, 0x06C, 0x100, 0x1FC].all (fun off =>
        decide (¬ (off % 4 ≠ 0 ∨ off = 0x01C ∨ (0x070 ≤ off ∧ off < 0x100) ∨
          0x100 + State.reset.cfg.pbufSize ≤ off)) &&
        nextIs (step (withEvent (.read 32 off))) (fun t => t.response == .data 0)) = true := by decide
theorem witness_KeyIsUnusableUntilSetkey :
    (∃ t, (withEvent (.reset { key := zeroBlock, rk := zeroRoundKeys, pbuf := [] })).inputs =
        .reset { key := zeroBlock, rk := zeroRoundKeys, pbuf := [] } :: [] ∧
      step (withEvent (.reset { key := zeroBlock, rk := zeroRoundKeys, pbuf := [] })) = .next t) ∧
    State.reset.status.getLsbD 0 = false ∧ (∃ t, step State.reset = .next t) ∧
    ∀ q, State.reset.inputs ≠ .write 32 0x000 0x00000001#32 :: q := by
  refine ⟨⟨_, rfl, rfl⟩, by decide, ⟨_, rfl⟩, fun q h => ?_⟩
  cases h
theorem witness_ResetLeavesAnyStoreContents : 255 < State.reset.cfg.pbufSize := by decide
theorem witness_StepAlwaysAnswers : State.reset.inputs = [] := by decide
theorem witness_StepKeepsTheInvariant :
    State.reset.Inv ∧ (∃ t, step State.reset = .next t) ∧
    (withPacket (List.replicate 20 1)).Inv := by
  refine ⟨by decide, ⟨_, rfl⟩, by decide⟩

end Sys2Proof.Tests
end

section
/-! SUPPORT. The register window (`20_memory.md` rules R41 to R45): which offsets the block admits,
what a transaction of an admitted target does in one step, and the three statements about them. -/

namespace Sys2Proof.Machine

/-! ## Lanes of a group (R45) -/

/-- Byte `m` of word `j` of a sixteen-byte group. -/
theorem byteOf_groupWord (g : Block) (j m : Fin 4) :
    byteOf (groupWord g j) m.val = g[4 * j.val + m.val] := by
  match m with
  | 0 => exact byteOf_le32_0 ..
  | 1 => exact byteOf_le32_1 ..
  | 2 => exact byteOf_le32_2 ..
  | 3 => exact byteOf_le32_3 ..

/-- Settles O41: both views are `LE32` by definition, and a byte of the word is that byte of the
group. -/
theorem groupLanesAreLittleEndian : Obligations.GroupLanesAreLittleEndian :=
  ⟨fun _ _ => rfl, fun g =>
    ⟨fun _ => rfl, fun j m => (byteOf_groupWord g j m).symm, groupWord_setGroupWord g⟩⟩

/-! ## Offsets (R41, R44) -/

/-- A register's offset is a multiple of 4 below `0x100`. -/
theorem registerAt_aligned {off : Nat} {r : Reg} (h : registerAt off = some r) :
    off % 4 = 0 ∧ off < 0x100 := by
  unfold registerAt at h
  split at h <;> simp at h ⊢

/-- The unmapped words below the PBUF window. -/
theorem registerAt_eq_none_iff {off : Nat} (h4 : off % 4 = 0) (h1 : off < 0x100) :
    registerAt off = none ↔ off = 0x01C ∨ 0x070 ≤ off := by
  have table : ∀ w : Fin 64,
      registerAt (4 * w.val) = none ↔ 4 * w.val = 0x01C ∨ 0x070 ≤ 4 * w.val := by decide
  obtain ⟨w, rfl⟩ := Nat.dvd_of_mod_eq_zero h4
  exact table ⟨w, by omega⟩

theorem registerAt_keyIn (j : Fin 4) : registerAt (0x020 + 4 * j.val) = some (.keyIn j) := by
  decide +revert

theorem registerAt_blkIn (j : Fin 4) : registerAt (0x030 + 4 * j.val) = some (.blkIn j) := by
  decide +revert

theorem registerAt_blkOut (j : Fin 4) : registerAt (0x040 + 4 * j.val) = some (.blkOut j) := by
  decide +revert

theorem registerAt_nonce (j : Fin 4) : registerAt (0x050 + 4 * j.val) = some (.nonce j) := by
  decide +revert

/-- The transactions R44 refuses. -/
theorem admitted_eq_none_iff (n width off : Nat) :
    admitted n width off = none ↔
      width ≠ 32 ∨ off % 4 ≠ 0 ∨ off = 0x01C ∨ (0x070 ≤ off ∧ off < 0x100) ∨
        0x100 + n ≤ off := by
  unfold admitted windowTarget
  split
  case isFalse hw => simp [hw]
  case isTrue hw =>
    split
    case isTrue h4 => simp [h4]
    case isFalse h4 =>
      split
      case isTrue h1 =>
        rw [Option.map_eq_none_iff, registerAt_eq_none_iff (by omega) h1]
        omega
      case isFalse h1 =>
        split
        case isTrue hn => exact iff_of_false nofun (by omega)
        case isFalse hn => exact iff_of_true rfl (by omega)

/-! ## One transaction, one step (R43, R44) -/

section
variable {s : State} {q : List HostEvent} {width off : Nat} {v : Word}

theorem step_read_refused (h : admitted s.cfg.pbufSize width off = none) :
    step { s with inputs := .read width off :: q } =
      .next { s with inputs := q, response := .busError } :=
  hostRead_refused (s := { s with inputs := q }) h

theorem step_write_refused (h : admitted s.cfg.pbufSize width off = none) :
    step { s with inputs := .write width off v :: q } =
      .next { s with inputs := q, response := .busError } :=
  hostWrite_refused (s := { s with inputs := q }) h

theorem step_read_register {r : Reg} (h : registerAt off = some r) :
    step { s with inputs := .read 32 off :: q } =
      .next { s with inputs := q, response := .data (readReg s r) } := by
  obtain ⟨h4, h1⟩ := registerAt_aligned h
  have hread : readReg { s with inputs := q } r = readReg s r := by cases r <;> rfl
  rw [← hread]
  exact hostRead_mapped (s := { s with inputs := q }) (admitted_register h4 h1 h)

theorem step_write_register {r : Reg} (h : registerAt off = some r) (hc : r ≠ .cmd) :
    step { s with inputs := .write 32 off v :: q } =
      .next { writeReg s r v with inputs := q, response := .accepted } := by
  obtain ⟨h4, h1⟩ := registerAt_aligned h
  have hwrite : writeReg { s with inputs := q, response := .accepted } r v =
      { writeReg s r v with inputs := q, response := .accepted } := by cases r <;> rfl
  rw [← hwrite]
  exact hostWrite_stores (s := { s with inputs := q }) (admitted_register h4 h1 h)
    (by simpa using hc)

theorem step_write_cmd :
    step { s with inputs := .write 32 0x000 v :: q } =
      runCommand v { s with inputs := q, response := .accepted } :=
  hostWrite_cmd (s := { s with inputs := q })
    (admitted_register (off := 0x000) rfl (by decide) rfl)

theorem admitted_windowWord {n w : Nat} (h : 0x100 + 4 * w < 0x100 + n) :
    admitted n 32 (0x100 + 4 * w) = some (.pbufWord w) := by
  rw [admitted_window (by omega) (by omega) h, show (0x100 + 4 * w - 0x100) / 4 = w by omega]

theorem step_read_window {w : Nat} (h : 0x100 + 4 * w < 0x100 + s.cfg.pbufSize) :
    step { s with inputs := .read 32 (0x100 + 4 * w) :: q } =
      .next { s with inputs := q, response := .data (pbufWord s.pbuf w) } :=
  hostRead_mapped (s := { s with inputs := q }) (admitted_windowWord h)

theorem step_write_window {w : Nat} (h : 0x100 + 4 * w < 0x100 + s.cfg.pbufSize) :
    step { s with inputs := .write 32 (0x100 + 4 * w) v :: q } =
      .next { s with pbuf := setPbufWord s.pbuf w v, inputs := q, response := .accepted } :=
  hostWrite_stores (s := { s with inputs := q }) (admitted_windowWord h) (by simp)

end

/-! ## Refused and admitted transactions (O45) -/

/-- A command answers a next state and leaves the model's own fields alone. -/
theorem exec_keeps_port (i : Instr) (s : State) :
    ∃ t, exec i s = .next t ∧ t.cfg = s.cfg ∧ t.inputs = s.inputs ∧ t.response = s.response := by
  rcases exec_cases i s with
    ⟨c, -, h⟩ | ⟨-, h⟩ | ⟨-, h⟩ | ⟨-, -, h⟩ | ⟨-, h⟩ | ⟨-, h⟩ | ⟨-, h⟩ <;>
    exact ⟨_, h, rfl, rfl, rfl⟩

/-- So does any word written to `CMD`. -/
theorem runCommand_keeps_port (v : Word) (s : State) :
    ∃ t, runCommand v s = .next t ∧ t.cfg = s.cfg ∧ t.inputs = s.inputs ∧
      t.response = s.response := by
  cases hd : decode v with
  | ok i => rw [runCommand_ok hd]; exact exec_keeps_port i s
  | error e => exact ⟨_, runCommand_illegal hd, rfl, rfl, rfl⟩

/-- An admitted write is accepted, whichever target it names. -/
theorem hostWrite_accepted {s : State} {width off : Nat} {t : Target} (v : Word)
    (h : admitted s.cfg.pbufSize width off = some t) :
    ∃ u, hostWrite width off v s = .next u ∧ u.response = .accepted := by
  by_cases hc : t = .reg .cmd
  · subst hc
    obtain ⟨u, hu, -, -, hr⟩ := runCommand_keeps_port v (respond .accepted s)
    exact ⟨u, (hostWrite_cmd h).trans hu, hr⟩
  · refine ⟨_, hostWrite_stores h hc, ?_⟩
    cases t with
    | reg r =>
      obtain ⟨-, -, -, -, -, -, -, -, -, hr⟩ := writeReg_keeps (respond .accepted s) r v
      exact hr
    | pbufWord w => rfl

/-- Settles O45: the refused transactions are those without an admitted target. -/
theorem busErrorChangesNoState : Obligations.BusErrorChangesNoState := by
  intro s q width off v
  rw [← admitted_eq_none_iff]
  refine ⟨fun h => ⟨step_read_refused h, step_write_refused h⟩, fun h => ?_⟩
  obtain ⟨t, ht⟩ := Option.ne_none_iff_exists'.mp h
  exact ⟨⟨_, hostRead_mapped (s := { s with inputs := q }) ht⟩,
    hostWrite_accepted (s := { s with inputs := q }) v ht⟩

/-! ## The register map (O42) -/

/-- A row of the map describes register `r`, which is not `CMD`: its offset, its value and its store
are the register's. -/
structure RegisterRow.Describes (row : RegisterRow) (r : Reg) : Prop where
  ne_cmd : r ≠ .cmd
  offset_eq : registerAt row.offset = some r
  value_eq : ∀ s, row.value s = readReg s r
  store_eq : ∀ s v, row.store s v = writeReg s r v

theorem readWriteRegisters_described :
    ∀ row ∈ readWriteRegisters, ∃ r, row.Describes r := by
  simp only [readWriteRegisters, List.forall_mem_append, List.forall_mem_cons, List.forall_mem_map]
  refine ⟨⟨⟨⟨.pktLen, ?_⟩, ⟨.ctrOff, ?_⟩, ⟨.ctrLen, ?_⟩, ⟨.hdrTo, ?_⟩, ⟨.hdrFrom, ?_⟩,
    ⟨.hdrId, ?_⟩, ⟨.hdrMisc, ?_⟩, by simp⟩, fun j _ => ⟨.blkIn j, ?blkIn⟩⟩,
    fun j _ => ⟨.nonce j, ?nonce⟩⟩
  case blkIn => exact ⟨nofun, registerAt_blkIn j, fun _ => rfl, fun _ _ => rfl⟩
  case nonce => exact ⟨nofun, registerAt_nonce j, fun _ => rfl, fun _ _ => rfl⟩
  all_goals exact ⟨nofun, rfl, fun _ => rfl, fun _ _ => rfl⟩

theorem readOnlyRegisters_described :
    ∀ row ∈ readOnlyRegisters, (∃ r, row.Describes r) ∧ ∀ s v, row.store s v = s := by
  simp only [readOnlyRegisters, List.forall_mem_append, List.forall_mem_cons, List.forall_mem_map]
  refine ⟨⟨⟨⟨.status, ?_⟩, by simp⟩, ⟨⟨.errcode, ?_⟩, by simp⟩,
    ⟨⟨.route, ?_⟩, by simp⟩, by simp⟩, fun j _ => ⟨⟨.blkOut j, ?blkOut⟩, by simp⟩⟩
  case blkOut => exact ⟨nofun, registerAt_blkOut j, fun _ => rfl, fun _ _ => rfl⟩
  all_goals exact ⟨nofun, rfl, fun _ => rfl, fun _ _ => rfl⟩

/-- The read and the write of a described register, in the row's own terms. -/
theorem RegisterRow.Describes.transactions {row : RegisterRow} {r : Reg} (h : row.Describes r)
    (s : State) (q : List HostEvent) (v : Word) :
    step { s with inputs := .read 32 row.offset :: q } =
        .next { s with inputs := q, response := .data (row.value s) } ∧
      step { s with inputs := .write 32 row.offset v :: q } =
        .next { row.store s v with inputs := q, response := .accepted } := by
  rw [h.value_eq, h.store_eq]
  exact ⟨step_read_register h.offset_eq, step_write_register h.offset_eq h.ne_cmd⟩

/-- A byte after a window word is written, by the word's addresses `4w..4w+3`. -/
theorem read_setPbufWord_range {m : Memory} (hm : m.wf) (w : Nat) (v : Word) (a : Nat) :
    (setPbufWord m w v).read a =
      if 4 * w ≤ a ∧ a < 4 * w + 4 then v.extractLsb' (8 * (a - 4 * w)) 8 else m.read a := by
  rw [read_setPbufWord hm]
  by_cases h : a / 4 = w
  · rw [if_pos h, if_pos (by omega), show a - 4 * w = a % 4 by omega, byteOf]
  · rw [if_neg h, if_neg (by omega)]

/-- Settles O42: every row of the map describes a register, whose two transactions are known; `CMD`
and the window words have their own. -/
theorem transactionsFollowTheRegisterMap : Obligations.TransactionsFollowTheRegisterMap := by
  intro s q v
  refine ⟨fun row hrow => ?readWrite, fun row hrow => ?readOnly, fun j => ?keyIn,
    step_read_register (r := .cmd) rfl, fun i hi => step_write_cmd.trans (runCommand_ok hi),
    fun e he => step_write_cmd.trans (runCommand_illegal he), fun w hw => ?window⟩
  case readWrite =>
    obtain ⟨r, hr⟩ := readWriteRegisters_described row hrow
    exact hr.transactions s q v
  case readOnly =>
    obtain ⟨⟨r, hr⟩, hignored⟩ := readOnlyRegisters_described row hrow
    simpa only [hignored] using hr.transactions s q v
  case keyIn =>
    exact ⟨step_read_register (registerAt_keyIn j), step_write_register (registerAt_keyIn j) nofun⟩
  case window =>
    exact ⟨step_read_window hw, _, step_write_window hw,
      fun hwf => read_setPbufWord_range hwf w v⟩

end Sys2Proof.Machine
end

section
/-! SUPPORT. The encoding (`30_encoding.md` rules R60 to R64): the words of the six commands are the
well-formed words and the only ones the decoder accepts, and the three statements about them. -/

namespace Sys2Proof.Machine

/-! ## The six words (R60 to R63) -/

/-- A row's word is the encoding of its command. -/
theorem encode_instr_of_mem {r : OpcodeRow} (hr : r ∈ opcodeTable) : encode r.instr = r.word := by
  have table : ∀ r ∈ opcodeTable, encode r.instr = r.word := by decide
  exact table r hr

@[simp] theorem decode_encode (i : Instr) : decode (encode i) = .ok i := by
  cases i <;> decide

/-- A word decodes to a command exactly when it is the command's own word. -/
theorem decode_eq_ok_iff {v : Word} {i : Instr} : decode v = .ok i ↔ encode i = v := by
  constructor
  · intro h
    unfold decode at h
    split at h
    next r hfind =>
      have hmem : r ∈ opcodeTable := List.mem_of_find?_eq_some hfind
      have hword : v = r.word := by
        simpa only [selects_table hmem, beq_iff_eq] using List.find?_some hfind
      cases h
      rw [encode_instr_of_mem hmem, hword]
    next => cases h
  · rintro rfl
    exact decode_encode i

/-- A word decodes to a row's command exactly when it selects the row (R61). -/
theorem decode_eq_ok_row_iff {r : OpcodeRow} (hr : r ∈ opcodeTable) (v : Word) :
    decode v = .ok r.instr ↔ v &&& r.mask = r.word :=
  calc decode v = .ok r.instr
    _ ↔ r.word = v := by rw [decode_eq_ok_iff, encode_instr_of_mem hr]
    _ ↔ r.selects v = true := by rw [selects_table hr, beq_iff_eq, eq_comm]
    _ ↔ v &&& r.mask = r.word := beq_iff_eq

/-- Settles O1: each of the six is a row of the opcode table. -/
theorem wordsSelectTheirRows : Obligations.WordsSelectTheirRows := by
  have row (k : Fin 6) (v : Word) := decode_eq_ok_row_iff (opcodeTable.getElem_mem k.isLt) v
  exact fun v => ⟨row 0 v, row 1 v, row 2 v, row 3 v, row 4 v, row 5 v⟩

/-! ## The illegal words (R62, R63) -/

/-- The decoder's one reason names the word itself. -/
theorem decode_eq_illegal_iff {v : Word} :
    decode v = .error (.illegalCommand v) ↔ ¬ ∃ i, encode i = v := by
  simp only [← decode_eq_ok_iff]
  unfold decode
  split <;> simp

/-- A command word is its two fields (R60). -/
theorem zeroField_append_opcodeField (v : Word) : zeroField v ++ opcodeField v = v :=
  BitVec.extractLsb'_append_extractLsb'

/-- The opcodes are `0x01..0x06`. -/
theorem exists_opcodeOf_eq {b : Byte} (h1 : 1 ≤ b.toNat) (h6 : b.toNat ≤ 6) :
    ∃ i, opcodeOf i = b := by
  obtain h | h | h | h | h | h :
      b = 0x01 ∨ b = 0x02 ∨ b = 0x03 ∨ b = 0x04 ∨ b = 0x05 ∨ b = 0x06 := by bv_omega
  exacts [⟨.setkey, h.symm⟩, ⟨.encblk, h.symm⟩, ⟨.ctrxor, h.symm⟩, ⟨.parsehdr, h.symm⟩,
    ⟨.buildnonce, h.symm⟩, ⟨.calcroute, h.symm⟩]

/-- The two checks on a word, as propositions about its fields. -/
theorem wellFormedWord_iff {v : Word} :
    wellFormedWord v = true ↔
      zeroField v = 0 ∧ 1 ≤ (opcodeField v).toNat ∧ (opcodeField v).toNat ≤ 6 := by
  simp only [wellFormedWord, zeroFieldOk, opcodeOk, Bool.and_eq_true, beq_iff_eq,
    decide_eq_true_eq]

theorem encodedWord (i : Instr) : Laws.EncodedWord.Statement i := by
  cases i
  exacts [Laws.EncodedWord.setkey, Laws.EncodedWord.encblk, Laws.EncodedWord.ctrxor,
    Laws.EncodedWord.parsehdr, Laws.EncodedWord.buildnonce, Laws.EncodedWord.calcroute]

theorem wellFormedWord_encode (i : Instr) : wellFormedWord (encode i) = true := (encodedWord i).1

/-- The encodings are the well-formed words. -/
theorem exists_encode_eq_iff {v : Word} : (∃ i, encode i = v) ↔ wellFormedWord v = true := by
  constructor
  · rintro ⟨i, rfl⟩
    exact wellFormedWord_encode i
  · intro h
    obtain ⟨hzero, h1, h6⟩ := wellFormedWord_iff.mp h
    obtain ⟨i, hi⟩ := exists_opcodeOf_eq h1 h6
    exact ⟨i, by rw [encode, hi, ← hzero, zeroField_append_opcodeField]⟩

/-- R62's list is the complement of the well-formed words. -/
theorem not_wellFormedWord_iff {v : Word} :
    ¬ wellFormedWord v = true ↔
      zeroField v ≠ 0 ∨ opcodeField v = 0 ∨ 7 ≤ (opcodeField v).toNat := by
  have hopcode : opcodeField v = 0 ↔ (opcodeField v).toNat = 0 := BitVec.toNat_inj.symm
  rw [wellFormedWord_iff, hopcode, not_and_or]
  exact or_congr_right (by omega)

/-- R62 for the decoder. -/
theorem decode_eq_illegal_iff_fields {v : Word} :
    decode v = .error (.illegalCommand v) ↔
      zeroField v ≠ 0 ∨ opcodeField v = 0 ∨ 7 ≤ (opcodeField v).toNat := by
  rw [decode_eq_illegal_iff, exists_encode_eq_iff, not_wellFormedWord_iff]

/-- Settles O4: the illegal words are those the decoder rejects, and the write of a rejected word to
`CMD` raises `ERR_ILLEGAL_CMD`. -/
theorem illegalWordsRaiseIllegalCommand : Obligations.IllegalWordsRaiseIllegalCommand :=
  fun _ => ⟨decode_eq_illegal_iff_fields, fun h _ _ =>
    step_write_cmd.trans (runCommand_illegal (decode_eq_illegal_iff_fields.mpr h))⟩

/-! ## Bytes and words (R64) -/

/-- Settles O40: `LE32` by its sum of bytes, the other two by their definition. -/
theorem byteConversions : Obligations.ByteConversions :=
  ⟨le32_toNat, fun _ => rfl, fun _ => rfl⟩

end Sys2Proof.Machine
end

section
/-! SUPPORT. The Block Cipher Core (`40_block_cipher.md` rules R80 to R93): multiplication in GF(2^8)
is commutative and associative, each entry of the S-box against its definition, the key schedule word
by word, the round operations byte by byte, and the eight statements about them. -/

namespace Sys2Proof.Machine

/-! ## Arithmetic in GF(2^8) (R80) -/

theorem xtime_xor (a b : Byte) : xtime (a ^^^ b) = xtime a ^^^ xtime b := by
  have carry : (if (a ^^^ b).getLsbD 7 then 0x1B else 0x00 : Byte) =
      (if a.getLsbD 7 then 0x1B else 0x00) ^^^ (if b.getLsbD 7 then 0x1B else 0x00) := by
    rw [BitVec.getLsbD_xor]
    cases a.getLsbD 7 <;> cases b.getLsbD 7 <;> rfl
  rw [xtime, carry, BitVec.shiftLeft_xor_distrib, xtime, xtime]
  ac_rfl

theorem xtimes_xor (a b : Byte) (n : Nat) : xtimes (a ^^^ b) n = xtimes a n ^^^ xtimes b n := by
  induction n with
  | zero => rfl
  | succ n ih => rw [xtimes, ih, xtime_xor, xtimes, xtimes]

theorem xor_gmul (a b c : Byte) : gmul (a ^^^ b) c = gmul a c ^^^ gmul b c := by
  have bits (n : Nat) : gmulBits (a ^^^ b) c n = gmulBits a c n ^^^ gmulBits b c n := by
    induction n with
    | zero => exact BitVec.xor_self.symm
    | succ n ih =>
      simp only [gmulBits, ih, xtimes_xor]
      split
      · ac_rfl
      · simp only [BitVec.ofNat_eq_ofNat, BitVec.xor_zero]
  exact bits 8

theorem gmul_xor (a b c : Byte) : gmul a (b ^^^ c) = gmul a b ^^^ gmul a c := by
  have bits (n : Nat) : gmulBits a (b ^^^ c) n = gmulBits a b n ^^^ gmulBits a c n := by
    induction n with
    | zero => exact BitVec.xor_self.symm
    | succ n ih =>
      have term : (if (b ^^^ c).getLsbD n then xtimes a n else 0) =
          (if b.getLsbD n then xtimes a n else 0) ^^^ (if c.getLsbD n then xtimes a n else 0) := by
        rw [BitVec.getLsbD_xor]
        cases b.getLsbD n <;> cases c.getLsbD n <;> simp
      rw [gmulBits, ih, term, gmulBits, gmulBits]
      ac_rfl
  exact bits 8

@[simp] theorem gmul_zero (a : Byte) : gmul a 0 = 0 := by
  simpa using gmul_xor a 0 0

/-- An additive map that commutes with `xtime` is linear over the field. -/
theorem map_gmul {f : Byte → Byte} (hadd : ∀ a b, f (a ^^^ b) = f a ^^^ f b)
    (hxtime : ∀ a, f (xtime a) = xtime (f a)) (a b : Byte) : f (gmul a b) = gmul (f a) b := by
  have hzero : f 0 = 0 := by simpa using hadd 0 0
  have hxtimes (n : Nat) : f (xtimes a n) = xtimes (f a) n := by
    induction n with
    | zero => rfl
    | succ n ih => rw [xtimes, hxtime, ih, xtimes]
  have bits (n : Nat) : f (gmulBits a b n) = gmulBits (f a) b n := by
    induction n with
    | zero => exact hzero
    | succ n ih => rw [gmulBits, hadd, ih, apply_ite f, hxtimes, hzero, gmulBits]
  exact bits 8

theorem xtime_gmul (a b : Byte) : gmul (xtime a) b = xtime (gmul a b) :=
  (map_gmul xtime_xor (fun _ => rfl) a b).symm

@[simp] theorem one_gmul (a : Byte) : gmul 1 a = a := by
  decide +revert

theorem gmul_comm (a b : Byte) : gmul a b = gmul b a :=
  calc gmul a b
    _ = gmul (gmul 1 a) b := by rw [one_gmul]
    _ = gmul (gmul 1 b) a :=
      (map_gmul (f := (gmul · b)) (xor_gmul · · b) (xtime_gmul · b) 1 a)
    _ = gmul b a := by rw [one_gmul]

theorem gmul_assoc (a b c : Byte) : gmul (gmul a b) c = gmul a (gmul b c) := by
  have hxtime (x : Byte) : gmul a (xtime x) = xtime (gmul a x) := by
    rw [gmul_comm, xtime_gmul, gmul_comm]
  exact (map_gmul (gmul_xor a) hxtime b c).symm

/-- A byte has at most one inverse. -/
theorem gmul_inverse_unique {a y z : Byte} (hy : gmul a y = 1) (hz : gmul a z = 1) : z = y :=
  calc z
    _ = gmul (gmul a y) z := by rw [hy, one_gmul]
    _ = gmul (gmul a z) y := by rw [gmul_assoc, gmul_comm y z, gmul_assoc]
    _ = y := by rw [hz, one_gmul]

/-! ## The S-box (R81, R82) -/

/-- Bit `i` of a byte rotated left by `r` is the bit `r` places below. -/
theorem getLsbD_rotateLeft_byte (y : Byte) {r i : Nat} (hr : r < 8) (hi : i < 8) :
    (y.rotateLeft r).getLsbD i = y.getLsbD ((i + (8 - r)) % 8) := by
  rw [BitVec.getLsbD_rotateLeft_of_le hr]
  by_cases h : i < r
  · simp only [h, decide_true, cond_true]
    congr 1; omega
  · simp only [h, hi, decide_false, decide_true, cond_false, Bool.true_and]
    congr 1; omega

/-- R81's affine map bit by bit. -/
theorem getLsbD_sboxAffine (y : Byte) (i : Fin 8) :
    (sboxAffine y).getLsbD i =
      (y.getLsbD i ^^ y.getLsbD ((i + 4) % 8) ^^ y.getLsbD ((i + 5) % 8) ^^
        y.getLsbD ((i + 6) % 8) ^^ y.getLsbD ((i + 7) % 8) ^^ (0x63#8).getLsbD i) := by
  have order : sboxAffine y =
      y ^^^ y.rotateLeft 4 ^^^ y.rotateLeft 3 ^^^ y.rotateLeft 2 ^^^ y.rotateLeft 1 ^^^ 0x63 := by
    rw [sboxAffine]
    ac_rfl
  simp only [order, BitVec.getLsbD_xor, getLsbD_rotateLeft_byte, Nat.reduceLT, Nat.reduceSub,
    i.isLt, BitVec.ofNat_eq_ofNat]

/-- The byte that the affine map of R81 takes to `b`. -/
def sboxAffineInv (b : Byte) : Byte :=
  b.rotateLeft 1 ^^^ b.rotateLeft 3 ^^^ b.rotateLeft 6 ^^^ 0x05

theorem sboxAffine_sboxAffineInv (b : Byte) : sboxAffine (sboxAffineInv b) = b := by
  decide +revert

/-- R82's demand to hold the table against the definition: each entry but the first, taken back
through the affine map, is the inverse of its index. -/
theorem gmul_sboxAffineInv_sbox {a : Byte} (ha : a ≠ 0) : gmul a (sboxAffineInv (sbox a)) = 1 := by
  decide +kernel +revert

theorem sboxAffineInv_sbox_zero : sboxAffineInv (sbox 0) = 0 := by decide

theorem eq_zero_of_sbox_eq {a : Byte} (h : sbox a = sbox 0) : a = 0 := by
  by_contra ha
  have hinv := gmul_sboxAffineInv_sbox ha
  rw [h, sboxAffineInv_sbox_zero, gmul_zero] at hinv
  exact absurd hinv (by decide)

/-- Equal entries have the same inverse, hence the same index. -/
theorem sbox_injective {a b : Byte} (hab : sbox a = sbox b) : a = b := by
  by_cases ha : a = 0
  · subst ha
    exact (eq_zero_of_sbox_eq hab.symm).symm
  by_cases hb : b = 0
  · subst hb
    exact eq_zero_of_sbox_eq hab
  have hainv := gmul_sboxAffineInv_sbox ha
  have hbinv := gmul_sboxAffineInv_sbox hb
  rw [gmul_comm] at hainv hbinv
  rw [← hab] at hbinv
  exact gmul_inverse_unique hbinv hainv

/-- Settles O10: `y` is the entry taken back through the affine map. -/
theorem sboxIsInverseThenAffine : Obligations.SboxIsInverseThenAffine := by
  refine ⟨fun a => ⟨sboxAffineInv (sbox a), ?zero, fun ha => ⟨?_, fun z => ?_⟩, ?_, fun i => ?_⟩,
    fun _ _ => sbox_injective⟩
  case zero => rintro rfl; decide
  · exact gmul_sboxAffineInv_sbox ha
  · exact gmul_inverse_unique (gmul_sboxAffineInv_sbox ha)
  · exact (sboxAffine_sboxAffineInv _).symm
  · rw [← getLsbD_sboxAffine, sboxAffine_sboxAffineInv]

/-! ## The key schedule (R83 to R85) -/

/-- Settles O11: the recurrence from `RC[1]` on, by cases on the index; the rest by definition. -/
theorem roundConstantsAndWordOperations : Obligations.RoundConstantsAndWordOperations := by
  refine ⟨by decide, fun j hj => ?_, fun _ => rfl, fun _ _ _ _ => ⟨rfl, rfl⟩⟩
  obtain ⟨j, rfl⟩ := Nat.exists_eq_add_of_le' hj
  rfl

theorem quad_eta (w : Quad) : #v[w[0], w[1], w[2], w[3]] = w := by
  ext i hi
  interval_cases i <;> rfl

/-- Word `c` of four words written one behind the other. -/
theorem quadOf_ofQuads (w0 w1 w2 w3 : Quad) (c : Fin 4) :
    quadOf (ofQuads w0 w1 w2 w3) c = #v[w0, w1, w2, w3][c] := by
  match c with
  | 0 => exact quad_eta w0
  | 1 => exact quad_eta w1
  | 2 => exact quad_eta w2
  | 3 => exact quad_eta w3

theorem getElem_keyExpansion (K : Block) (r : Fin 11) : (keyExpansion K)[r] = roundKey K r.val := by
  simp [keyExpansion]

/-- The first word of a round key comes from the last word of the round key before. -/
theorem quadOf_nextRoundKey_zero (k : Block) (j : Nat) :
    quadOf (nextRoundKey k j) 0 =
      xorQuad (quadOf k 0) (xorQuad (subWord (rotWord (quadOf k 3))) (rcon j)) :=
  quadOf_ofQuads _ _ _ _ 0

/-- Each other word comes from the word before it. -/
theorem quadOf_nextRoundKey_succ (k : Block) (j : Nat) (c : Fin 3) :
    quadOf (nextRoundKey k j) c.succ =
      xorQuad (quadOf k c.succ) (quadOf (nextRoundKey k j) c.castSucc) := by
  simp only [nextRoundKey, quadOf_ofQuads]
  match c with
  | 0 | 1 | 2 => rfl

/-- Settles O12: word `j` with `4 ≤ j` is word `j mod 4` of a round key after the first. -/
theorem keyScheduleRecurrence : Obligations.KeyScheduleRecurrence := by
  refine fun K => ⟨getElem_keyExpansion K 0, fun w hw => ?_⟩
  have word (r : Nat) (hr : r < 11) (c : Fin 4) : w (4 * r + c.val) = quadOf (roundKey K r) c := by
    rw [← getElem_keyExpansion K ⟨r, hr⟩]
    exact hw ⟨r, hr⟩ c
  refine ⟨fun j => ?_, fun j hlo hhi => ?_⟩
  · have hzero := word 0 (by decide) j
    rwa [Nat.mul_zero, Nat.zero_add] at hzero
  · obtain ⟨r, c, hr, rfl⟩ : ∃ (r : Nat) (c : Fin 4), r < 10 ∧ j = 4 * (r + 1) + c.val :=
      ⟨j / 4 - 1, ⟨j % 4, by omega⟩, by omega, show j = 4 * (j / 4 - 1 + 1) + j % 4 by omega⟩
    rw [show 4 * (r + 1) + c.val - 4 = 4 * r + c.val by omega, word (r + 1) (by omega),
      word r (by omega)]
    cases c using Fin.cases with
    | zero =>
      have hlast : w (4 * (r + 1) + (0 : Fin 4).val - 1) = quadOf (roundKey K r) 3 :=
        word r (by omega) 3
      rw [if_pos (by simp), hlast, show (4 * (r + 1) + (0 : Fin 4).val) / 4 = r + 1 by simp]
      exact quadOf_nextRoundKey_zero ..
    | succ c =>
      have hprev : w (4 * (r + 1) + c.succ.val - 1) = quadOf (roundKey K (r + 1)) c.castSucc :=
        word (r + 1) (by omega) c.castSucc
      rw [if_neg (by rw [Fin.val_succ]; omega), hprev]
      exact quadOf_nextRoundKey_succ ..

/-! ## The round operations (R86 to R89) -/

theorem getElem_shiftRows (s : Block) (n : Nat) (hn : n < 16) :
    (shiftRows s)[n] = s[n % 4 + 4 * ((n / 4 + n % 4) % 4)] := by
  simp [shiftRows]

/-- Settles O13: the index of row `r`, column `c` is `r + 4c`. -/
theorem roundOperationsByteByByte : Obligations.RoundOperationsByteByByte := by
  refine fun s k => ⟨fun n => ?_, fun n => ?_, fun n => getElem_shiftRows s n n.isLt, fun r c => ?_⟩
  · simp [addRoundKey]
  · simp [subBytes]
  · rw [getElem_shiftRows]
    congr 1
    omega

theorem quadOf_mixColumns (s : Block) (c : Fin 4) :
    quadOf (mixColumns s) c = mixColumn (quadOf s c) := by
  rw [mixColumns, quadOf_ofQuads]
  match c with
  | 0 | 1 | 2 | 3 => rfl

/-- Settles O14: the bytes of a column of `MixColumns`. -/
theorem mixColumnsByColumns : Obligations.MixColumnsByColumns := fun s c =>
  have byte (m : Fin 4) := congrArg (·[m]) (quadOf_mixColumns s c)
  ⟨byte 0, byte 1, byte 2, byte 3⟩

/-! ## The forward transform (R90) -/

/-- Settles O15: the nine rounds of `Cipher`, one after the other. -/
theorem cipherRunsTheTenRounds : Obligations.CipherRunsTheTenRounds := by
  intro rk x st h0 h
  have round (r : Nat) (hr : r < 9 := by decide) :
      fullRound (st r) rk[r + 1] = st (r + 1) :=
    (h ⟨r, hr⟩).symm
  rw [cipher, ← h0]
  simp only [List.foldl_cons, List.foldl_nil]
  rw [round 0, round 1, round 2, round 3, round 4, round 5, round 6, round 7, round 8, finalRound]

/-! ## The commands (R92, R93) -/

/-- Settles O7: the one path of SETKEY. -/
theorem setkeyLoadsAndExpandsTheKey : Obligations.SetkeyLoadsAndExpandsTheKey :=
  ⟨decode_encode .setkey, fun _ => rfl⟩

/-- Settles O8: the two paths of ENCBLK. -/
theorem encblkEncryptsTheBlock : Obligations.EncblkEncryptsTheBlock := by
  refine ⟨decode_encode .encblk, fun s => ?_⟩
  rcases execEncblk_cases s with ⟨hkey, hexec⟩ | ⟨hkey, hexec⟩
  · exact ⟨fun _ => hexec, fun hno => absurd (hkey.symm.trans hno) (by decide)⟩
  · exact ⟨fun hyes => absurd (hkey.symm.trans hyes) (by decide), fun _ => hexec⟩

end Sys2Proof.Machine
end

section
/-! SUPPORT. The CTR Keystream Engine (`41_ctr_engine.md` rules R110 to R116): which bytes a counter
block takes from the nonce, what CtrXor does as a function of its input, what CTRXOR leaves in the
packet buffer, and the six statements about them. -/

namespace Sys2Proof.Machine

/-! ## The counter block and the keystream (R110) -/

theorem getElem_counterBlock_nonce (n : Block) (i : Word) (k : Fin 12) :
    (counterBlock n i)[k.val] = n[k.val] := by
  fin_cases k <;> rfl

/-- Settles O16: the nonce's twelve bytes, and the index in `BE32bytes` order by definition. -/
theorem counterBlockReplacesTheTail : Obligations.CounterBlockReplacesTheTail :=
  fun n i => ⟨getElem_counterBlock_nonce n i, rfl, rfl, rfl, rfl⟩

/-- The tail comes from the block index alone. -/
theorem counterBlock_eq_of_nonce_head {n n' : Block} (h : ∀ k : Fin 12, n'[k.val] = n[k.val])
    (i : Word) : counterBlock n' i = counterBlock n i := by
  refine Vector.ext fun k hk => ?_
  by_cases hlt : k < 12
  · calc (counterBlock n' i)[k]
      _ = n'[k] := getElem_counterBlock_nonce n' i ⟨k, hlt⟩
      _ = n[k] := h ⟨k, hlt⟩
      _ = (counterBlock n i)[k] := (getElem_counterBlock_nonce n i ⟨k, hlt⟩).symm
  · obtain rfl | rfl | rfl | rfl : k = 12 ∨ k = 13 ∨ k = 14 ∨ k = 15 := by omega
    all_goals rfl

theorem keystreamByte_eq_of_nonce_head {n n' : Block} (h : ∀ k : Fin 12, n'[k.val] = n[k.val])
    (rk : RoundKeys) (p : Nat) : keystreamByte rk n' p = keystreamByte rk n p := by
  simp only [keystreamByte, keystreamBlock, counterBlock_eq_of_nonce_head h]

/-! ## The CTR transform (R111 to R113) -/

section
variable (rk : RoundKeys) (n : Block) (q : Nat) (d : List Byte)

/-- R112, involution. -/
@[simp] theorem ctrXorFrom_ctrXorFrom : ctrXorFrom rk n q (ctrXorFrom rk n q d) = d := by
  refine List.ext_getElem? fun k => ?_
  simp only [ctrXorFrom_getElem?]
  cases d[k]? with
  | none => rfl
  | some x => simp

/-- R112, first bytes. -/
theorem ctrXorFrom_take (m : Nat) :
    ctrXorFrom rk n q (d.take m) = (ctrXorFrom rk n q d).take m := by
  refine List.ext_getElem? fun k => ?_
  simp only [ctrXorFrom_getElem?, List.getElem?_take]
  split <;> rfl

/-- R112, keystream: zeros give the keystream itself. -/
theorem ctrXorFrom_replicate_zero_getElem? {l p : Nat} (hp : p < l) :
    (ctrXorFrom rk n q (List.replicate l 0))[p]? = some (keystreamByte rk n (q + p)) := by
  rw [ctrXorFrom_getElem?, List.getElem?_replicate_of_lt hp, Option.map_some, BitVec.ofNat_eq_ofNat,
    BitVec.zero_xor]

/-- R112, keystream: the output is the input XOR the keystream. -/
theorem ctrXorFrom_eq_zipWith_keystream :
    ctrXorFrom rk n q d =
      List.zipWith (· ^^^ ·) d (ctrXorFrom rk n q (List.replicate d.length 0)) := by
  refine List.ext_getElem? fun k => ?_
  rw [ctrXorFrom_getElem?, List.getElem?_zipWith]
  by_cases hk : k < d.length
  · rw [ctrXorFrom_replicate_zero_getElem? rk n q hk, List.getElem?_eq_getElem hk]
    rfl
  · rw [List.getElem?_eq_none (Nat.not_lt.mp hk)]
    rfl

/-- R112, no chaining: the changed byte alone meets its keystream byte again. -/
theorem ctrXorFrom_set (p : Nat) (y : Byte) :
    ctrXorFrom rk n q (d.set p y) =
      (ctrXorFrom rk n q d).set p (y ^^^ keystreamByte rk n (q + p)) := by
  refine List.ext_getElem? fun k => ?_
  simp only [ctrXorFrom_getElem?, List.getElem?_set, ctrXorFrom_length]
  by_cases hpk : p = k
  · subst hpk
    simp only [if_true]
    split <;> rfl
  · simp only [hpk, if_false]

end

/-- R112, nonce tail. -/
theorem ctrXorFrom_eq_of_nonce_head {n n' : Block} (h : ∀ k : Fin 12, n'[k.val] = n[k.val])
    (rk : RoundKeys) (q : Nat) (d : List Byte) : ctrXorFrom rk n' q d = ctrXorFrom rk n q d := by
  refine List.ext_getElem? fun k => ?_
  simp only [ctrXorFrom_getElem?, keystreamByte_eq_of_nonce_head h]

/-- Byte `p` of the transform of a whole array. -/
theorem ctrXorFrom_zero_getElem? (rk : RoundKeys) (n : Block) {d : List Byte} {p : Nat} {x : Byte}
    (h : d[p]? = some x) :
    (ctrXorFrom rk n 0 d)[p]? = some (x ^^^ keystreamByte rk n p) := by
  rw [ctrXorFrom_getElem?, h, Nat.zero_add, Option.map_some]

/-- Settles O17: the keystream byte of position `p` is by definition the one the rule names. -/
theorem ctrXorByteByByte : Obligations.CtrXorByteByByte := fun rk n _ hd =>
  ⟨_, ctrXor_of_le hd, ctrXorFrom_length .., fun _ _ => ctrXorFrom_zero_getElem? rk n⟩

/-- Settles O18: one law of the transform per property; in the last, `o ^ x` is the keystream byte. -/
theorem ctrXorProperties : Obligations.CtrXorProperties := by
  intro rk n d hd
  refine ⟨_, ctrXorFrom rk n 0 (List.replicate d.length 0), ctrXor_of_le hd, ctrXorFrom_length ..,
    ?involution, fun m hm => ?initialPart,
    ⟨ctrXor_of_le (by simpa using hd), fun p hp => ?keystream,
      ctrXorFrom_eq_zipWith_keystream ..⟩,
    fun n' hn => ?nonceTail, fun p x y o hx ho => ?noChaining⟩
  case involution => rw [ctrXor_of_le (by simpa using hd), ctrXorFrom_ctrXorFrom]
  case initialPart => rw [ctrXor_of_le ((List.length_take_le' m d).trans hd), ctrXorFrom_take]
  case keystream => rw [ctrXorFrom_replicate_zero_getElem? rk n 0 hp, Nat.zero_add]; rfl
  case nonceTail => rw [ctrXor_of_le hd, ctrXorFrom_eq_of_nonce_head hn]
  case noChaining =>
    have ho' : o = x ^^^ keystreamByte rk n p :=
      Option.some.inj (ho.symm.trans (ctrXorFrom_zero_getElem? rk n hx))
    have hdiff : o ^^^ x ^^^ y = y ^^^ keystreamByte rk n (0 + p) := by
      rw [ho', Nat.zero_add, BitVec.xor_comm x, BitVec.xor_assoc _ x x, BitVec.xor_self,
        BitVec.xor_zero, BitVec.xor_comm]
    rw [ctrXor_of_le (by simpa using hd), ctrXorFrom_set, hdiff]

/-- Settles O19: longer arrays fail the function's check; a position inside PBUF is below `2^31`. -/
theorem blockIndexNeverWraps : Obligations.BlockIndexNeverWraps := by
  refine ⟨fun _ _ _ hlong => if_neg (Nat.not_le.mpr hlong), fun s hcfg hfits p hp => ?_⟩
  obtain ⟨-, -, hmax, -⟩ := hcfg
  omega

/-! ## The command (R114, R116) -/

theorem execCtrxor_of_no_key {s : State} (hk : statusKeyValid s.status = false) :
    execCtrxor s = .next (raiseError .noKey s) := if_pos hk

theorem execCtrxor_of_not_fits {s : State} (hk : statusKeyValid s.status = true)
    (hr : s.cfg.pbufSize < s.ctrOff.toNat + s.ctrLen.toNat) :
    execCtrxor s = .next (raiseError .range s) := by
  rw [execCtrxor, if_neg (by simp [hk]), if_pos hr]

/-- A byte of the packet buffer after a CTRXOR whose range fits. -/
theorem read_ctrxorBuffer {s : State} (hm : s.pbuf.wf) (a : Nat) :
    (ctrxorBuffer s).read a =
      if s.ctrOff.toNat ≤ a ∧ a < s.ctrOff.toNat + s.ctrLen.toNat then
        s.pbuf.read a ^^^ keystreamByte s.rk s.nonce (a - s.ctrOff.toNat)
      else s.pbuf.read a := by
  rw [ctrxorBuffer, read_writeBytes hm, ctrXorFrom_getElem?, readBytes_getElem?]
  by_cases hlo : s.ctrOff.toNat ≤ a
  · by_cases hhi : a < s.ctrOff.toNat + s.ctrLen.toNat
    · simp [hlo, hhi, show a - s.ctrOff.toNat < s.ctrLen.toNat by omega]
    · simp [hhi, show ¬ a - s.ctrOff.toNat < s.ctrLen.toNat by omega]
  · simp [hlo]

/-- Settles O20: the three paths of CTRXOR, and each byte of the buffer on the successful one. -/
theorem ctrxorTransformsTheRange : Obligations.CtrxorTransformsTheRange :=
  ⟨decode_encode .ctrxor, fun s => ⟨execCtrxor_of_no_key, execCtrxor_of_not_fits,
    fun hk hr => ⟨ctrxorBuffer s, execCtrxor_of_fits hk hr, read_ctrxorBuffer⟩⟩⟩

theorem ctrxorBuffer_eq_of_nonce_head {s : State} {n : Block}
    (h : ∀ k : Fin 12, n[k.val] = s.nonce[k.val]) :
    ctrxorBuffer { s with nonce := n } = ctrxorBuffer s := by
  simp only [ctrxorBuffer, ctrXorFrom_eq_of_nonce_head h]

/-- Settles O23: both states take the same path, and on the successful one the buffers agree. -/
theorem ctrxorIgnoresTheNonceTail : Obligations.CtrxorIgnoresTheNonceTail := by
  intro s t n hn hexec
  rcases execCtrxor_cases s with ⟨hk, h⟩ | ⟨hk, hr, h⟩ | ⟨hk, hr, h⟩ <;>
    cases h.symm.trans hexec
  · exact execCtrxor_of_no_key (s := { s with nonce := n }) hk
  · exact execCtrxor_of_not_fits (s := { s with nonce := n }) hk hr
  · have hfits := execCtrxor_of_fits (s := { s with nonce := n }) hk hr
    rw [ctrxorBuffer_eq_of_nonce_head hn] at hfits
    exact hfits

end Sys2Proof.Machine
end

section
/-! SUPPORT. The packet header parser (`42_header_parser.md` rules R120 to R127): the header's
fields, the nonce's words, the bits of `ROUTE`, and what its commands read and write. -/

namespace Sys2Proof.Machine

/-! ## The header (R120) -/

/-- An array of at least sixteen bytes matches the pattern of `parseHeader`. -/
theorem eq_cons_sixteen_of_length {B : List Byte} (h : 16 ≤ B.length) :
    B = B[0] :: B[1] :: B[2] :: B[3] :: B[4] :: B[5] :: B[6] :: B[7] :: B[8] :: B[9] :: B[10] ::
      B[11] :: B[12] :: B[13] :: B[14] :: B[15] :: B.drop 16 := by
  simp only [List.getElem_cons_drop, List.drop_zero]

/-- Settles O24: an array has sixteen leading bytes exactly when its length is 16 or more. -/
theorem parseHeaderReadsSevenFields : Obligations.ParseHeaderReadsSevenFields := by
  intro B
  unfold parseHeader
  split
  case h_1 =>
    refine ⟨fun hshort => absurd hshort ?_, fun _ => rfl⟩
    simp only [List.length_cons]
    omega
  case h_2 hother =>
    refine ⟨fun _ => rfl, fun hlong => absurd (eq_cons_sixteen_of_length hlong) ?_⟩
    apply hother

/-! ## PARSEHDR (R124) -/

theorem execParsehdr_of_out_of_range {s : State} (h : s.cfg.pbufSize < s.pktLen.toNat) :
    execParsehdr s = .next (raiseError .range s) := if_pos h

theorem execParsehdr_of_short {s : State} (h : s.pktLen.toNat ≤ s.cfg.pbufSize)
    (h16 : s.pktLen.toNat < 16) : execParsehdr s = .next (raiseError .shortHeader s) := by
  rw [execParsehdr, if_neg (Nat.not_lt.mpr h), if_pos h16]

/-- Without underflow the payload's length is the difference of the numbers. -/
theorem word_sub_sixteen {v : Word} (h : 16 ≤ v.toNat) :
    v - 16 = BitVec.ofNat 32 (v.toNat - 16) := by
  bv_omega

/-- Settles O25: the three paths of PARSEHDR. -/
theorem parsehdrLoadsTheHeader : Obligations.ParsehdrLoadsTheHeader := by
  refine ⟨decode_encode .parsehdr, fun s =>
    ⟨execParsehdr_of_out_of_range, execParsehdr_of_short, fun h h16 => ?_⟩⟩
  rw [← word_sub_sixteen h16]
  exact execParsehdr_of_fits h h16

/-! ## BUILDNONCE (R121, R125) -/

theorem groupWord_buildNonce (packetId fromAddress : Word) :
    groupWord (buildNonce packetId fromAddress) 0 = packetId ∧
    groupWord (buildNonce packetId fromAddress) 1 = 0 ∧
    groupWord (buildNonce packetId fromAddress) 2 = fromAddress ∧
    groupWord (buildNonce packetId fromAddress) 3 = 0 :=
  ⟨le32_byteOf packetId, show le32 0 0 0 0 = 0 from rfl, le32_byteOf fromAddress,
    show le32 0 0 0 0 = 0 from rfl⟩

/-- Settles O27: BUILDNONCE has one path, and the words of the nonce are `LE32` of `LE32bytes`. -/
theorem buildnonceLaysOutTheNonce : Obligations.BuildnonceLaysOutTheNonce :=
  ⟨decode_encode .buildnonce, fun s =>
    ⟨buildNonce s.hdrId s.hdrFrom, rfl, rfl, groupWord_buildNonce s.hdrId s.hdrFrom⟩⟩

/-! ## CalcRouting (R122, R123) -/

theorem hopLimitOf_toNat_le (flags : Byte) : (hopLimitOf flags).toNat ≤ 7 := by
  rw [hopLimitOf, BitVec.toNat_and]
  exact Nat.and_le_right

theorem hopStartOf_toNat_le (flags : Byte) : (hopStartOf flags).toNat ≤ 7 := by
  rw [hopStartOf, BitVec.toNat_and]
  exact Nat.and_le_right

theorem skipCount_toNat (flags : Byte) (toAddress : Word) :
    (calcRouting flags toAddress).skipCount.toNat =
      (256 + (hopStartOf flags).toNat - (hopLimitOf flags).toNat) % 256 := by
  have hlimit := hopLimitOf_toNat_le flags
  rw [calcRouting, BitVec.toNat_sub]
  omega

theorem skipCount_of_no_underflow {flags : Byte}
    (h : (hopLimitOf flags).toNat ≤ (hopStartOf flags).toNat) (toAddress : Word) :
    (calcRouting flags toAddress).skipCount.toNat =
      (hopStartOf flags).toNat - (hopLimitOf flags).toNat ∧
    (calcRouting flags toAddress).skipCount.toNat ≤ 7 := by
  have hstart := hopStartOf_toNat_le flags
  rw [skipCount_toNat]
  omega

theorem skipCount_of_underflow {flags : Byte}
    (h : (hopStartOf flags).toNat < (hopLimitOf flags).toNat) (toAddress : Word) :
    (calcRouting flags toAddress).skipCount.toNat =
      256 + (hopStartOf flags).toNat - (hopLimitOf flags).toNat ∧
    249 ≤ (calcRouting flags toAddress).skipCount.toNat := by
  have hlimit := hopLimitOf_toNat_le flags
  rw [skipCount_toNat]
  omega

/-- Settles O29: both hop counts are at most 7, so the 8-bit difference wraps exactly when it
underflows. -/
theorem skipCountUnderflowIsFlagged : Obligations.SkipCountUnderflowIsFlagged :=
  fun _ toAddress => ⟨rfl, rfl, bne_iff_ne,
    fun hge => ⟨decide_eq_false (Nat.not_lt.mpr hge), skipCount_of_no_underflow hge toAddress⟩,
    fun hlt => ⟨decide_eq_true hlt, skipCount_of_underflow hlt toAddress⟩⟩

/-! ## The layout of ROUTE (R19) -/

@[simp] theorem getElem_flagWord (b : Bool) (i : Nat) (hi : i < 32) :
    (flagWord b)[i] = (decide (i = 0) && b) := by
  cases b <;> simp [flagWord, BitVec.getElem_one]

/-- The `ROUTE` word of two hop counts of 3 bits each. -/
def routeWord (limit start : BitVec 3) (count : Byte) (uf heard : Bool) : Word :=
  packRoute ⟨limit.setWidth 8, start.setWidth 8, count, uf, heard⟩

section
variable (limit start : BitVec 3) (count : Byte) (uf heard : Bool)

/-- Bit `i` of `ROUTE`, by the five fields that may hold it. -/
theorem getElem_routeWord {i : Nat} (hi : i < 32) :
    (routeWord limit start count uf heard)[i] =
      (limit.getLsbD i || (decide (4 ≤ i) && start.getLsbD (i - 4)) || (decide (i = 8) && heard) ||
        (decide (i = 9) && uf) || (decide (16 ≤ i) && count.getLsbD (i - 16))) := by
  interval_cases i <;> simp [routeWord, packRoute]

theorem routeWord_hopLimit : (routeWord limit start count uf heard).extractLsb' 0 3 = limit := by
  ext i hi
  interval_cases i <;> simp [getElem_routeWord]

theorem routeWord_hopStart : (routeWord limit start count uf heard).extractLsb' 4 3 = start := by
  ext i hi
  interval_cases i <;> simp [getElem_routeWord]

theorem routeWord_heardDirectly : (routeWord limit start count uf heard).getLsbD 8 = heard := by
  simp [getElem_routeWord]

theorem routeWord_skipUf : (routeWord limit start count uf heard).getLsbD 9 = uf := by
  simp [getElem_routeWord]

theorem routeWord_skipCount :
    (routeWord limit start count uf heard).extractLsb' 16 8 = count := by
  ext i hi
  interval_cases i <;> simp [getElem_routeWord]

theorem routeWord_reserved : routeWord limit start count uf heard &&& 0xFF00FC88#32 = 0 := by
  ext i hi
  interval_cases i <;> simp [getElem_routeWord]

end

/-! ## CALCROUTE (R126) -/

/-- `hop_limit` is `HDR_MISC[2:0]`. -/
theorem hopLimitOf_byteOf (misc : Word) :
    hopLimitOf (byteOf misc 0) = (misc.extractLsb' 0 3).setWidth 8 := by
  ext i hi
  interval_cases i <;> simp [hopLimitOf, byteOf]

/-- `hop_start` is `HDR_MISC[7:5]`. -/
theorem hopStartOf_byteOf (misc : Word) :
    hopStartOf (byteOf misc 0) = (misc.extractLsb' 5 3).setWidth 8 := by
  ext i hi
  interval_cases i <;> simp [hopStartOf, byteOf]

/-- What `CalcRouting` reads of `HDR_MISC`: bits 2:0 and 7:5. -/
theorem calcRouting_byteOf (misc toAddress : Word) :
    calcRouting (byteOf misc 0) toAddress =
      ⟨(misc.extractLsb' 0 3).setWidth 8, (misc.extractLsb' 5 3).setWidth 8,
        (misc.extractLsb' 5 3).setWidth 8 - (misc.extractLsb' 0 3).setWidth 8,
        decide ((misc.extractLsb' 5 3).toNat < (misc.extractLsb' 0 3).toNat),
        toAddress != 0xFFFFFFFF⟩ := by
  rw [calcRouting, hopLimitOf_byteOf, hopStartOf_byteOf,
    BitVec.toNat_setWidth_of_le (by decide), BitVec.toNat_setWidth_of_le (by decide)]

/-- Settles O30: each clause is a field of the layout of R19. -/
theorem calcrouteWritesTheRouteWord : Obligations.CalcrouteWritesTheRouteWord := by
  refine ⟨decode_encode .calcroute, fun s => ⟨_, rfl, ?_⟩⟩
  rw [calcRouting_byteOf, ← routeWord]
  refine ⟨routeWord_hopLimit .., routeWord_hopStart .., ?heardDirectly, routeWord_skipUf ..,
    ?skipCount, routeWord_reserved ..⟩
  case heardDirectly =>
    rw [routeWord_heardDirectly]
    exact Bool.eq_iff_iff.mpr (bne_iff_ne.trans decide_eq_true_iff.symm)
  case skipCount =>
    have hlimit := (s.hdrMisc.extractLsb' 0 3).isLt
    rw [routeWord_skipCount, BitVec.toNat_sub, BitVec.toNat_setWidth_of_le (by decide),
      BitVec.toNat_setWidth_of_le (by decide)]
    omega

/-! ## The uninterpreted bits of HDR_MISC (R127) -/

/-- The hop counts lie inside the mask `0xE7`. -/
theorem calcRouting_eq_of_masked_eq {misc misc' : Word}
    (h : misc &&& 0x000000E7#32 = misc' &&& 0x000000E7#32) (toAddress : Word) :
    calcRouting (byteOf misc 0) toAddress = calcRouting (byteOf misc' 0) toAddress := by
  have hlimit (v : Word) : (v &&& 0x000000E7#32).extractLsb' 0 3 = v.extractLsb' 0 3 := by
    ext i hi
    interval_cases i <;> simp
  have hstart (v : Word) : (v &&& 0x000000E7#32).extractLsb' 5 3 = v.extractLsb' 5 3 := by
    ext i hi
    interval_cases i <;> simp
  rw [calcRouting_byteOf, calcRouting_byteOf, ← hlimit misc, ← hstart misc, h, hlimit, hstart]

theorem execEncblk_of_no_key {s : State} (hk : statusKeyValid s.status = false) :
    execEncblk s = .next (raiseError .noKey s) := by simp [execEncblk, hk]

theorem execEncblk_of_key {s : State} (hk : statusKeyValid s.status = true) :
    execEncblk s = .next (succeed { s with blkOut := cipher s.rk s.blkIn }) := if_pos hk

/-- Settles O31: both states take the same path, and only CALCROUTE's result reads `HDR_MISC`. -/
theorem uninterpretedHeaderBitsAreIgnored : Obligations.UninterpretedHeaderBitsAreIgnored := by
  intro i s t misc hmask hexec
  cases i with
  | setkey => cases hexec; exact ⟨_, rfl, rfl⟩
  | encblk =>
    rcases execEncblk_cases s with ⟨hk, h⟩ | ⟨hk, h⟩ <;> cases h.symm.trans hexec
    · exact ⟨_, execEncblk_of_key (s := { s with hdrMisc := misc }) hk, rfl⟩
    · exact ⟨_, execEncblk_of_no_key (s := { s with hdrMisc := misc }) hk, rfl⟩
  | ctrxor =>
    rcases execCtrxor_cases s with ⟨hk, h⟩ | ⟨hk, hr, h⟩ | ⟨hk, hr, h⟩ <;>
      cases h.symm.trans hexec
    · exact ⟨_, execCtrxor_of_no_key (s := { s with hdrMisc := misc }) hk, rfl⟩
    · exact ⟨_, execCtrxor_of_not_fits (s := { s with hdrMisc := misc }) hk hr, rfl⟩
    · exact ⟨_, execCtrxor_of_fits (s := { s with hdrMisc := misc }) hk hr, rfl⟩
  | parsehdr =>
    rcases execParsehdr_cases s with ⟨hr, h⟩ | ⟨hr, h16, h⟩ | ⟨hr, h16, h⟩ <;>
      cases h.symm.trans hexec
    · exact ⟨_, execParsehdr_of_out_of_range (s := { s with hdrMisc := misc }) hr, rfl⟩
    · exact ⟨_, execParsehdr_of_short (s := { s with hdrMisc := misc }) hr h16, rfl⟩
    · exact ⟨_, execParsehdr_of_fits (s := { s with hdrMisc := misc }) hr h16, rfl⟩
  | buildnonce => cases hexec; exact ⟨_, rfl, rfl⟩
  | calcroute =>
    cases hexec
    refine ⟨_, rfl, ?_⟩
    rw [calcRouting_eq_of_masked_eq hmask]
    rfl

end Sys2Proof.Machine
end

section
/-! SUPPORT. The endings of a command (`60_exceptions.md` rules R140 to R148): which check of R147 is
the first to fail, that a command ends with its code, and the three statements about it. -/

namespace Sys2Proof.Machine

/-! ## The result record (R141, R148, R154) -/

@[simp] theorem getElem_one_setOk (status : Word) (b : Bool) : (setOk status b)[1] = b := by
  cases b <;> simp [setOk, okMask]

@[simp] theorem errWord_eq_zero_iff {c : ErrCode} : errWord c = 0 ↔ c = .none := by
  cases c <;> decide

/-- The two endings of a command whose first failing check has the code `c`, run in `s`: `succeed`
where no check fails, else `raise Error(c)` in `s` itself. -/
def EndsWith (c : ErrCode) (s t : State) : Prop :=
  (c = .none ∧ ∃ u, t = succeed u) ∨ (c ≠ .none ∧ t = raiseError c s)

section
variable {c : ErrCode} {s t : State}

theorem EndsWith.errcode (h : EndsWith c s t) : t.errcode = errWord c := by
  obtain ⟨rfl, u, rfl⟩ | ⟨-, rfl⟩ := h <;> rfl

theorem EndsWith.ok_iff (h : EndsWith c s t) : t.status.getLsbD 1 = true ↔ c = .none := by
  obtain ⟨rfl, u, rfl⟩ | ⟨hc, rfl⟩ := h
  · simp
  · simp [hc]

theorem EndsWith.eq_recordedError (h : EndsWith c s t) (hok : t.status.getLsbD 1 = false) :
    t = State.recordedError s t.errcode := by
  obtain ⟨-, u, rfl⟩ | ⟨-, rfl⟩ := h
  · simp at hok
  · rfl

end

/-! ## The first failing check (R147) -/

/-- The code of the first check of a command that fails, `none` where all hold (R147). -/
def failingCheck (s : State) : Instr → ErrCode
  | .encblk => if statusKeyValid s.status = false then .noKey else .none
  | .ctrxor =>
    if statusKeyValid s.status = false then .noKey
    else if s.cfg.pbufSize < s.ctrOff.toNat + s.ctrLen.toNat then .range
    else .none
  | .parsehdr =>
    if s.cfg.pbufSize < s.pktLen.toNat then .range
    else if s.pktLen.toNat < 16 then .shortHeader
    else .none
  | .setkey | .buildnonce | .calcroute => .none

/-- The same for a word written to `CMD`, whose first check is that it is a command. -/
def wordFailingCheck (s : State) (v : Word) : ErrCode :=
  match decode v with
  | .ok i => failingCheck s i
  | .error _ => .illegalCmd

@[simp] theorem wordFailingCheck_encode (s : State) (i : Instr) :
    wordFailingCheck s (encode i) = failingCheck s i := by simp [wordFailingCheck]

theorem wordFailingCheck_illegal {v : Word} {e : DecodeError} (s : State)
    (h : decode v = .error e) : wordFailingCheck s v = .illegalCmd := by simp [wordFailingCheck, h]

/-- Each path of each command against its checks. -/
theorem exec_endsWith (i : Instr) (s : State) :
    ∃ t, exec i s = .next t ∧ EndsWith (failingCheck s i) s t := by
  cases i with
  | setkey | buildnonce | calcroute => exact ⟨_, rfl, .inl ⟨rfl, _, rfl⟩⟩
  | encblk =>
    rcases execEncblk_cases s with ⟨hk, h⟩ | ⟨hk, h⟩ <;> refine ⟨_, h, ?_⟩
    · exact .inl ⟨by simp [failingCheck, hk], _, rfl⟩
    · exact .inr (by simp [failingCheck, hk])
  | ctrxor =>
    rcases execCtrxor_cases s with ⟨hk, h⟩ | ⟨hk, hr, h⟩ | ⟨hk, hr, h⟩ <;> refine ⟨_, h, ?_⟩
    · exact .inr (by simp [failingCheck, hk])
    · exact .inr (by simp [failingCheck, hk, hr])
    · exact .inl ⟨by simp [failingCheck, hk, Nat.not_lt.mpr hr], _, rfl⟩
  | parsehdr =>
    rcases execParsehdr_cases s with ⟨hr, h⟩ | ⟨hr, h16, h⟩ | ⟨hr, h16, h⟩ <;> refine ⟨_, h, ?_⟩
    · exact .inr (by simp [failingCheck, hr])
    · exact .inr (by simp [failingCheck, Nat.not_lt.mpr hr, h16])
    · exact .inl ⟨by simp [failingCheck, Nat.not_lt.mpr hr, Nat.not_lt.mpr h16], _, rfl⟩

theorem runCommand_endsWith (v : Word) (s : State) :
    ∃ t, runCommand v s = .next t ∧ EndsWith (wordFailingCheck s v) s t := by
  cases hd : decode v with
  | ok i =>
    obtain rfl := decode_eq_ok_iff.mp hd
    rw [runCommand_ok hd, wordFailingCheck_encode]
    exact exec_endsWith i s
  | error e =>
    rw [runCommand_illegal hd, wordFailingCheck_illegal s hd]
    exact ⟨_, rfl, .inr ⟨by decide, rfl⟩⟩

/-- A step that takes the write of a word to `CMD` ends as the word's command does. -/
theorem step_cmd_endsWith {s : State} {q : List HostEvent} {v : Word}
    (h : s.inputs = .write 32 0x000 v :: q) :
    ∃ t, step s = .next t ∧
      EndsWith (wordFailingCheck s v) { s with inputs := q, response := .accepted } t := by
  rw [step_of_inputs h, ← step_event, step_write_cmd]
  exact runCommand_endsWith v { s with inputs := q, response := .accepted }

/-! ## A command ends, and the block goes on (O32) -/

/-- Every step of every state answers a next state (R140). -/
theorem step_answers (s : State) : ∃ t, step s = .next t := by
  rcases step_cases s with
    ⟨-, h⟩ | ⟨_, _, -, h⟩ | ⟨_, _, i, -, -, h⟩ | ⟨_, _, _, -, -, h⟩ | ⟨_, _, _, _, -, h⟩ |
    ⟨_, _, _, _, -, h⟩ | ⟨_, _, _, _, -, -, -, -, h⟩ | ⟨_, _, _, -, -, -, -, h⟩
  case inr.inr.inl =>
    obtain ⟨t, ht, -⟩ := exec_endsWith i _
    exact ⟨t, h.trans ht⟩
  all_goals exact ⟨_, h⟩

/-- Settles O32: the ending has the code of the first failing check, `none` or one of four. -/
theorem commandsSucceedOrRaise : Obligations.CommandsSucceedOrRaise := by
  intro s q v h
  obtain ⟨t, ht, hend⟩ := step_cmd_endsWith h
  refine ⟨t, ht, ?_, step_answers t⟩
  rw [Bool.eq_false_iff, Ne, hend.ok_iff, hend.errcode]
  cases wordFailingCheck s v <;> decide

/-! ## A failed command (O33) -/

/-- Settles O33: an ending with `OK` 0 is `raiseError`. -/
theorem failedCommandChangesOnlyTheRecord : Obligations.FailedCommandChangesOnlyTheRecord := by
  intro s t q v h ht hok
  obtain ⟨t', ht', hend⟩ := step_cmd_endsWith h
  cases ht.symm.trans ht'
  exact hend.eq_recordedError hok

/-! ## The order of the checks (O34) -/

theorem encode_toNat (i : Instr) : (encode i).toNat = (opcodeOf i).toNat := by cases i <;> rfl

/-- As numbers the command words are 1 to 6. -/
theorem exists_encode_eq_iff_toNat {v : Word} :
    (∃ i, encode i = v) ↔ 1 ≤ v.toNat ∧ v.toNat ≤ 6 := by
  constructor
  · rintro ⟨i, rfl⟩
    cases i <;> decide
  · rintro ⟨h1, h6⟩
    have hbyte : (BitVec.ofNat 8 v.toNat).toNat = v.toNat := Nat.mod_eq_of_lt (by omega)
    obtain ⟨i, hi⟩ := exists_opcodeOf_eq (b := BitVec.ofNat 8 v.toNat) (by omega) (by omega)
    exact ⟨i, BitVec.eq_of_toNat_eq (by rw [encode_toNat, hi, hbyte])⟩

theorem toNat_of_decode_eq_error {v : Word} {e : DecodeError} (h : decode v = .error e) :
    v.toNat = 0 ∨ 6 < v.toNat := by
  have hno : ¬ ∃ i, encode i = v := by simp [← decode_eq_ok_iff, h]
  rw [exists_encode_eq_iff_toNat] at hno
  omega

/-- The checks of all commands as the one chain of R147. -/
theorem errWord_wordFailingCheck (s : State) (v : Word) :
    errWord (wordFailingCheck s v) =
      (if v.toNat = 0 ∨ 6 < v.toNat then 3#32
      else if (v = 2#32 ∨ v = 3#32) ∧ s.status.getLsbD 0 = false then 2#32
      else if (v = 3#32 ∧ s.ctrOff.toNat + s.ctrLen.toNat > s.cfg.pbufSize) ∨
          (v = 4#32 ∧ s.pktLen.toNat > s.cfg.pbufSize) then 4#32
      else if v = 4#32 ∧ s.pktLen.toNat < 16 then 1#32
      else 0#32) := by
  cases hd : decode v with
  | error e =>
    rw [wordFailingCheck_illegal s hd, if_pos (toNat_of_decode_eq_error hd)]
    rfl
  | ok i =>
    obtain rfl := decode_eq_ok_iff.mp hd
    rw [wordFailingCheck_encode]
    cases i with
    | setkey | buildnonce | calcroute => rfl
    | encblk | ctrxor | parsehdr =>
      simp only [failingCheck, apply_ite errWord]
      simp [errWord, encode, opcodeOf, statusKeyValid]

/-- Settles O34: the code left is that of the first failing check, 0 exactly on success. -/
theorem errorsAreReportedInOrder : Obligations.ErrorsAreReportedInOrder := by
  intro s t q v h ht
  obtain ⟨t', ht', hend⟩ := step_cmd_endsWith h
  cases ht.symm.trans ht'
  refine ⟨hend.errcode.trans (errWord_wordFailingCheck s v), ?_⟩
  rw [hend.ok_iff, hend.errcode, errWord_eq_zero_iff]

end Sys2Proof.Machine
end

section
/-! SUPPORT. `KEY_VALID` (`10_state.md` rule R17, `60_exceptions.md` rule R143,
`70_reset_and_hazards.md` rule R161): which updates of the record and of the registers leave the bit
alone, what one step can do to it, and the statement about the block without a key. -/

namespace Sys2Proof.Machine

/-! ## What leaves `KEY_VALID` alone (R17) -/

@[simp] theorem getElem_zero_setOk (status : Word) (b : Bool) : (setOk status b)[0] = status[0] := by
  cases b <;> simp [setOk, okMask]

/-- Every command but SETKEY, on every path. -/
theorem exec_keeps_keyValid {i : Instr} {s t : State} (hi : i ≠ .setkey)
    (h : exec i s = .next t) : t.status.getLsbD 0 = s.status.getLsbD 0 := by
  rcases exec_cases i s with
    ⟨c, -, hc⟩ | ⟨hset, -⟩ | ⟨-, hc⟩ | ⟨-, -, hc⟩ | ⟨-, hc⟩ | ⟨-, hc⟩ | ⟨-, hc⟩
  case inr.inl => exact absurd hset hi
  all_goals
    cases hc.symm.trans h
    simp [loadHeader]

/-- A step that is not the write of SETKEY's word to `CMD` keeps `KEY_VALID`, or is a reset and clears
it. -/
theorem step_keeps_or_clears_keyValid {s t : State} (h : step s = .next t)
    (hset : ∀ q, s.inputs ≠ .write 32 0x000 (encode .setkey) :: q) :
    t.status.getLsbD 0 = s.status.getLsbD 0 ∨
      ((∃ d q, s.inputs = .reset d :: q) ∧ t.status.getLsbD 0 = false) := by
  rcases step_cases s with
    ⟨-, hs⟩ | ⟨d, q, hin, hs⟩ | ⟨v, q, i, hin, hd, hs⟩ | ⟨_, _, _, -, -, hs⟩ | ⟨_, _, _, _, -, hs⟩ |
    ⟨_, _, _, _, -, hs⟩ | ⟨_, v, q, r, -, -, -, -, hs⟩ | ⟨_, _, _, -, -, -, -, hs⟩
  case inr.inl =>
    cases hs.symm.trans h
    exact .inr ⟨⟨d, q, hin⟩, by simp⟩
  case inr.inr.inl =>
    obtain rfl := decode_eq_ok_iff.mp hd
    have hi : i ≠ .setkey := by
      rintro rfl
      exact hset q hin
    exact .inl (exec_keeps_keyValid (s := { s with inputs := q, response := .accepted }) hi
      (hs.symm.trans h))
  case inr.inr.inr.inr.inr.inr.inl =>
    cases hs.symm.trans h
    obtain ⟨hstatus, -⟩ := writeReg_keeps { s with inputs := q, response := .accepted } r v
    exact .inl (congrArg (·.getLsbD 0) hstatus)
  all_goals
    cases hs.symm.trans h
    simp

/-! ## The block without a key (R143, R161) -/

/-- Settles O48: reset clears the bit, both commands check it first, only SETKEY sets it. -/
theorem keyIsUnusableUntilSetkey : Obligations.KeyIsUnusableUntilSetkey := by
  refine fun s => ⟨fun d q t hin h => ?_, fun hkey =>
    ⟨execEncblk_of_no_key hkey, execCtrxor_of_no_key hkey, fun t h hset => ?_⟩⟩
  · cases (step_of_inputs hin).symm.trans h
    simp
  · rcases step_keeps_or_clears_keyValid h hset with hkeeps | ⟨-, hclear⟩
    · exact hkeeps.trans hkey
    · exact hclear

end Sys2Proof.Machine
end

section
/-! SUPPORT. The statements that follow at once from the laws of their own unit: the decoder,
GF(2^8), the CTR engine and the header parser, in this order. -/

namespace Sys2Proof.Machine

/-! ## The decoder (R60 to R63) -/

/-- Settles O3: the six words are distinct, and the decoder accepts no other. -/
theorem decodeInvertsEncode : Obligations.DecodeInvertsEncode := fun _ _ => decode_eq_ok_iff

/-- Settles O2: the three words are encodings. -/
theorem writtenOutWordsDecode : Obligations.WrittenOutWordsDecode :=
  ⟨decode_encode .setkey, decode_encode .ctrxor, decode_encode .calcroute⟩

/-! ## Arithmetic in GF(2^8) (R80) -/

theorem xtime_eq_ite (b : Byte) :
    xtime b = if b.getLsbD 7 then (b <<< 1) ^^^ 0x1B#8 else b <<< 1 := by
  unfold xtime
  split
  · rfl
  · exact BitVec.xor_zero

theorem xtimes_eq_iterate (a : Byte) (n : Nat) : xtimes a n = xtime^[n] a := by
  induction n with
  | zero => rfl
  | succ n ih => rw [xtimes, ih, Function.iterate_succ_apply']

theorem gmulBits_eq_foldl (a b : Byte) (n : Nat) :
    gmulBits a b n = (List.range n).foldl
      (fun acc j => acc ^^^ (if b.getLsbD j then xtime^[j] a else 0)) 0 := by
  induction n with
  | zero => rfl
  | succ n ih =>
    rw [List.range_succ, List.foldl_append, ← ih, gmulBits, xtimes_eq_iterate]
    rfl

theorem gmul_one (a : Byte) : gmul a 0x01 = a := by rw [gmul_comm, one_gmul]

theorem gmul_two (a : Byte) : gmul a 0x02 = xtime a :=
  calc gmul a 0x02
    _ = gmul (xtime 1) a := gmul_comm a 0x02
    _ = xtime a := by rw [xtime_gmul, one_gmul]

theorem gmul_three (a : Byte) : gmul a 0x03 = xtime a ^^^ a :=
  calc gmul a 0x03
    _ = gmul a 0x02 ^^^ gmul a 0x01 := gmul_xor a 0x02 0x01
    _ = xtime a ^^^ a := by rw [gmul_two, gmul_one]

/-- Settles O9: the two definitions in the rule's own form, and the laws one by one. -/
theorem fieldMultiplicationLaws : Obligations.FieldMultiplicationLaws := fun a b c =>
  ⟨xtime_eq_ite b, gmulBits_eq_foldl a b 8, gmul_one a, gmul_two a, gmul_three a, gmul_zero a,
    gmul_comm a b, gmul_assoc a b c, gmul_xor a b c⟩

/-! ## The CTR engine (R114) -/

theorem ctrxorBuffer_wf {s : State} (hm : s.pbuf.wf) : (ctrxorBuffer s).wf :=
  writeBytes_wf hm _ _

/-- A range's bytes meet the same keystream bytes twice (R112, involution). -/
theorem ctrxorBuffer_ctrxorBuffer {s : State} (hm : s.pbuf.wf) :
    ctrxorBuffer { s with pbuf := ctrxorBuffer s } = s.pbuf := by
  have hwf := ctrxorBuffer_wf hm
  refine Memory.ext (ctrxorBuffer_wf hwf) hm fun a => ?_
  rw [read_ctrxorBuffer hwf, read_ctrxorBuffer hm]
  split
  · rw [BitVec.xor_assoc, BitVec.xor_self, BitVec.xor_zero]
  · rfl

theorem setOk_setOk (status : Word) : setOk (setOk status true) true = setOk status true := by
  simp only [setOk, if_true, BitVec.or_assoc, BitVec.or_self]

/-- The second of two CTRXORs in a row finds the same operands and the record of success. -/
theorem execCtrxor_execCtrxor {s : State} (hk : statusKeyValid s.status = true)
    (hr : s.ctrOff.toNat + s.ctrLen.toNat ≤ s.cfg.pbufSize) (hm : s.pbuf.wf) :
    execCtrxor (succeed { s with pbuf := ctrxorBuffer s }) = .next (succeed s) := by
  have hk' : statusKeyValid (setOk s.status true) = true := by simpa [statusKeyValid] using hk
  have hbuf : ctrxorBuffer (succeed { s with pbuf := ctrxorBuffer s }) = s.pbuf :=
    ctrxorBuffer_ctrxorBuffer hm
  have hexec := execCtrxor_of_fits (s := succeed { s with pbuf := ctrxorBuffer s }) hk' hr
  rw [hexec, hbuf]
  simp only [succeed, setOk_setOk]

/-- Settles O21: the second CTRXOR undoes the first. -/
theorem ctrxorTwiceRestoresTheBuffer : Obligations.CtrxorTwiceRestoresTheBuffer :=
  fun _ hk hr hm => ⟨_, execCtrxor_of_fits hk hr, execCtrxor_execCtrxor hk hr hm⟩

theorem ctrxorBuffer_of_empty {s : State} (h : s.ctrLen = 0) : ctrxorBuffer s = s.pbuf := by
  rw [ctrxorBuffer, h]
  rfl

/-- Settles O22: an empty range fits where its offset does, and no byte is written. -/
theorem ctrxorEmptyRangeSucceeds : Obligations.CtrxorEmptyRangeSucceeds := by
  intro s hk hlen hoff
  have hfits : s.ctrOff.toNat + s.ctrLen.toNat ≤ s.cfg.pbufSize := by simpa [hlen] using hoff
  have hexec := execCtrxor_of_fits hk hfits
  rw [ctrxorBuffer_of_empty hlen] at hexec
  exact hexec

/-! ## The header parser (R67, R120 to R125) -/

theorem readBytes_getD {n k : Nat} (m : Memory) (hk : k < n) :
    (readBytes m 0 n).getD k 0 = m.read k := by
  rw [List.getD_eq_getElem?_getD, readBytes_getElem?, if_pos hk, Nat.zero_add, Option.getD_some]

/-- The header of the packet in the buffer. -/
theorem parseHeader_readBytes (m : Memory) {n : Nat} (h : 16 ≤ n) :
    parseHeader (readBytes m 0 n) = some
      { toAddress := pbufWord m 0
        fromAddress := pbufWord m 1
        packetId := pbufWord m 2
        flags := m.read 12
        channel := m.read 13
        nextHop := m.read 14
        relayNode := m.read 15 } := by
  have byte (k : Nat) (hk : k < 16) := readBytes_getD m (Nat.lt_of_lt_of_le hk h)
  rw [(parseHeaderReadsSevenFields _).2 (by simpa using h)]
  simp only [byte, Nat.reduceLT, pbufWord, Nat.reduceMul, Nat.reduceAdd]

/-- Settles O26: both read the same sixteen bytes, and `HDR_MISC` holds the last four as `LE32`. -/
theorem parsehdrIsParseHeaderOfThePacket : Obligations.ParsehdrIsParseHeaderOfThePacket :=
  fun s hfits h16 => ⟨_, _, parseHeader_readBytes s.pbuf h16, execParsehdr_of_fits hfits h16,
    rfl, rfl, rfl, byteOf_le32_0 .., byteOf_le32_1 .., byteOf_le32_2 .., byteOf_le32_3 ..⟩

@[simp] theorem le32Bytes_le32 (b0 b1 b2 b3 : Byte) :
    le32Bytes (le32 b0 b1 b2 b3) = #v[b0, b1, b2, b3] := by
  simp only [le32Bytes, byteOf_le32_0, byteOf_le32_1, byteOf_le32_2, byteOf_le32_3]

theorem buildNonce_le32 (p0 p1 p2 p3 f0 f1 f2 f3 : Byte) :
    buildNonce (le32 p0 p1 p2 p3) (le32 f0 f1 f2 f3) =
      #v[p0, p1, p2, p3, 0, 0, 0, 0, f0, f1, f2, f3, 0, 0, 0, 0] := by
  simp only [buildNonce, le32Bytes_le32]
  rfl

/-- Settles O28: PARSEHDR loads the two fields as `LE32` of their bytes, and BUILDNONCE writes
`LE32bytes` of them. -/
theorem nonceComesFromThePacketBytes : Obligations.NonceComesFromThePacketBytes :=
  fun _ hfits h16 => ⟨_, _, execParsehdr_of_fits hfits h16, rfl, buildNonce_le32 ..⟩

end Sys2Proof.Machine
end

section
/-! SUPPORT. The host port (`20_memory.md` rules R42, R51 and R52, `30_encoding.md` rule R60): a
read changes nothing, a write to `CMD` runs its word, and a read after a write returns the word
written. -/

namespace Sys2Proof.Machine

theorem step_of_no_inputs {s : State} (h : s.inputs = []) : step s = .next s := by
  simp only [step, hostStep, h]

/-- Settles O43: refused or not, a read answers at the port only. -/
theorem hostReadChangesNoState : Obligations.HostReadChangesNoState := by
  intro s q width off
  cases ha : admitted s.cfg.pbufSize width off with
  | none => exact ⟨_, step_read_refused ha⟩
  | some t => exact ⟨_, hostRead_mapped (s := { s with inputs := q }) ha⟩

/-- A step that takes the write of a word to `CMD` runs the word. -/
theorem step_of_cmd {s : State} {q : List HostEvent} {v : Word}
    (h : s.inputs = .write 32 0x000 v :: q) :
    step s = runCommand v { s with inputs := q, response := .accepted } := by
  rw [step_of_inputs h, ← step_event, step_write_cmd]

/-- Settles O5: the word is run, and running a command's word is its `exec`. -/
theorem stepRunsTheDecodedCommand : Obligations.StepRunsTheDecodedCommand :=
  fun _ _ _ _ hin hd => (step_of_cmd hin).trans (runCommand_ok hd)

/-- The event `withFetchWord` puts in front of the others. -/
theorem withFetchWord_encode_inputs (s : State) (i : Instr) :
    (s.withFetchWord 32 (encode i).toNat).inputs = .write 32 0x000 (encode i) :: s.inputs := by
  simp only [State.withFetchWord, placeCommand, withInputs_inputs,
    Nat.mod_eq_of_lt (encode i).isLt, BitVec.ofNat_toNat, BitVec.setWidth_eq]

/-- Settles O6: the placed event is the write of the encoded word to `CMD`. -/
theorem placedWordRunsNext : Obligations.PlacedWordRunsNext := fun s i =>
  (step_of_cmd (withFetchWord_encode_inputs s i)).trans (runCommand_ok (decode_encode i))

/-- A read-write register holds the word just stored in it. -/
theorem readWriteRegisters_value_store :
    ∀ row ∈ readWriteRegisters, ∀ s v, row.value (row.store s v) = v := by
  simp only [readWriteRegisters, List.forall_mem_append, List.forall_mem_cons, List.forall_mem_map]
  refine ⟨⟨by simp, fun j _ s v => ?blkIn⟩, fun j _ s v => ?nonce⟩
  case blkIn => exact (groupWord_setGroupWord s.blkIn j j v).trans (if_pos rfl)
  case nonce => exact (groupWord_setGroupWord s.nonce j j v).trans (if_pos rfl)

/-- The aligned offsets of the read-write registers. -/
theorem exists_readWriteRegister {off : Nat} (h4 : off % 4 = 0)
    (h : (0x00C ≤ off ∧ off ≤ 0x014) ∨ (0x030 ≤ off ∧ off ≤ 0x03C) ∨
      (0x050 ≤ off ∧ off ≤ 0x06C)) : ∃ row ∈ readWriteRegisters, row.offset = off := by
  have table : ∀ w : Fin 28,
      (0x00C ≤ 4 * w.val ∧ 4 * w.val ≤ 0x014) ∨ (0x030 ≤ 4 * w.val ∧ 4 * w.val ≤ 0x03C) ∨
        (0x050 ≤ 4 * w.val ∧ 4 * w.val ≤ 0x06C) →
      4 * w.val ∈ readWriteRegisters.map (·.offset) := by decide
  obtain ⟨w, rfl⟩ := Nat.dvd_of_mod_eq_zero h4
  exact List.mem_map.mp (table ⟨w, by omega⟩ h)

/-- A register's value does not depend on the model's own fields. -/
theorem readReg_port (s : State) (q : List HostEvent) (a : Response) (r : Reg) :
    readReg { s with inputs := q, response := a } r = readReg s r := by cases r <;> rfl

/-- A write and then a read of a read-write register. -/
theorem step_write_read_register {row : RegisterRow} (hrow : row ∈ readWriteRegisters) (s : State)
    (q : List HostEvent) (v : Word) :
    ∃ t, step { s with inputs := .write 32 row.offset v :: .read 32 row.offset :: q } = .next t ∧
      step t = .next { t with inputs := q, response := .data v } := by
  obtain ⟨r, hr⟩ := readWriteRegisters_described row hrow
  refine ⟨_, (hr.transactions s (.read 32 row.offset :: q) v).2, ?_⟩
  have hval : readReg (row.store s v) r = v :=
    (hr.value_eq _).symm.trans (readWriteRegisters_value_store row hrow s v)
  have hread := step_read_register (q := q)
    (s := { row.store s v with inputs := .read 32 row.offset :: q, response := .accepted })
    hr.offset_eq
  rwa [readReg_port, hval] at hread

/-- A write and then a read of a word of the PBUF window. -/
theorem step_write_read_window {s : State} {w : Nat} (hm : s.pbuf.wf)
    (h : 0x100 + 4 * w < 0x100 + s.cfg.pbufSize) (q : List HostEvent) (v : Word) :
    ∃ t, step { s with inputs := .write 32 (0x100 + 4 * w) v :: .read 32 (0x100 + 4 * w) :: q } =
        .next t ∧ step t = .next { t with inputs := q, response := .data v } := by
  refine ⟨_, step_write_window h, ?_⟩
  have hread := step_read_window (q := q) (w := w)
    (s := { s with
      pbuf := setPbufWord s.pbuf w v
      inputs := .read 32 (0x100 + 4 * w) :: q
      response := .accepted }) h
  rwa [pbufWord_setPbufWord hm, if_pos rfl] at hread

/-- Settles O44: below `0x100` the offset is a read-write register's, above it a window word's. -/
theorem readReturnsTheLatestWrite : Obligations.ReadReturnsTheLatestWrite := by
  rintro s q v off ⟨hm, -⟩ - h4 hoff
  by_cases h1 : off < 0x100
  · obtain ⟨row, hrow, rfl⟩ := exists_readWriteRegister h4 (by omega)
    exact step_write_read_register hrow s q v
  · obtain ⟨w, rfl⟩ : ∃ w, off = 0x100 + 4 * w := ⟨(off - 0x100) / 4, by omega⟩
    exact step_write_read_window hm (by omega) q v

end Sys2Proof.Machine
end

section
/-! SUPPORT. What a whole step leaves alone (`10_state.md` sections 2, 4 and 5, `60_exceptions.md`
rule R149): the frame of each command, of a word written to `CMD`, and of every other event, and the
statements on the result record, the key store and `KEY_VALID`. -/

namespace Sys2Proof.Machine

/-! ## The frame of the commands -/

theorem setOk_reserved (status : Word) (b : Bool) :
    setOk status b &&& 0xFFFFFFFC#32 = status &&& 0xFFFFFFFC#32 := by
  cases b with
  | false => rw [setOk, if_neg (by decide), BitVec.and_assoc]; rfl
  | true => rw [setOk, if_pos rfl, BitVec.and_or_distrib_right]; exact BitVec.or_zero

theorem setKeyValid_reserved (status : Word) :
    setKeyValid status &&& 0xFFFFFFFC#32 = status &&& 0xFFFFFFFC#32 := by
  rw [setKeyValid, BitVec.and_or_distrib_right]
  exact BitVec.or_zero

/-- Settles O36: each of the seven forms of a command's result names the fields it writes. -/
theorem commandsWriteOnlyTheirDestinations : Obligations.CommandsWriteOnlyTheirDestinations := by
  intro i s t h
  rcases exec_cases i s with
    ⟨c, -, hc⟩ | ⟨rfl, hc⟩ | ⟨rfl, hc⟩ | ⟨rfl, -, hc⟩ | ⟨rfl, hc⟩ | ⟨rfl, hc⟩ | ⟨rfl, hc⟩ <;>
    cases hc.symm.trans h <;>
    simp [loadHeader, setOk_reserved, setKeyValid_reserved]

/-! ## Every event but a `CMD` write and a reset -/

/-- What every host event but a `CMD` write and a reset leaves alone: the result record, the results
of the commands and the key store; of PBUF it writes one word of the window at most. -/
structure State.OperandsOnly (s t : State) : Prop where
  status_eq : t.status = s.status
  errcode_eq : t.errcode = s.errcode
  route_eq : t.route = s.route
  blkOut_eq : t.blkOut = s.blkOut
  key_eq : t.key = s.key
  rk_eq : t.rk = s.rk
  cfg_eq : t.cfg = s.cfg
  pbuf_eq : t.pbuf = s.pbuf ∨
    ∃ w v, 4 * w < s.cfg.pbufSize ∧ t.pbuf = setPbufWord s.pbuf w v

/-- A step takes the write of a word to `CMD`, or a reset, or changes operands only. -/
theorem step_operandsOnly_or_cmd_or_reset {s t : State} (h : step s = .next t) :
    s.OperandsOnly t ∨
    (∃ v q, s.inputs = .write 32 0x000 v :: q ∧
      runCommand v { s with inputs := q, response := .accepted } = .next t) ∨
    (∃ d q, s.inputs = .reset d :: q ∧ t = resetEvent d { s with inputs := q }) := by
  rcases step_cases s with
    ⟨-, hs⟩ | ⟨d, q, hin, hs⟩ | ⟨v, q, _, hin, -, -⟩ | ⟨v, q, _, hin, -, -⟩ |
    ⟨_, _, _, _, -, hs⟩ | ⟨_, _, _, _, -, hs⟩ | ⟨_, v, q, r, -, -, -, -, hs⟩ |
    ⟨off, v, _, -, h4, h1, h2, hs⟩
  case inr.inl =>
    cases hs.symm.trans h
    exact .inr (.inr ⟨d, q, hin, rfl⟩)
  case inr.inr.inl | inr.inr.inr.inl =>
    exact .inr (.inl ⟨v, q, hin, (step_of_cmd hin).symm.trans h⟩)
  case inr.inr.inr.inr.inr.inr.inl =>
    cases hs.symm.trans h
    obtain ⟨hstatus, herr, hkey, hrk, hroute, hout, hpbuf, hcfg, -⟩ :=
      writeReg_keeps { s with inputs := q, response := .accepted } r v
    exact .inl ⟨hstatus, herr, hroute, hout, hkey, hrk, hcfg, .inl hpbuf⟩
  case inr.inr.inr.inr.inr.inr.inr =>
    cases hs.symm.trans h
    exact .inl ⟨rfl, rfl, rfl, rfl, rfl, rfl, rfl, .inr ⟨_, v, by omega, rfl⟩⟩
  all_goals
    cases hs.symm.trans h
    exact .inl ⟨rfl, rfl, rfl, rfl, rfl, rfl, rfl, .inl rfl⟩

/-- Settles O35: the two events that touch the record are the ones left out. -/
theorem recordChangesOnlyAtCommandsAndReset : Obligations.RecordChangesOnlyAtCommandsAndReset := by
  intro s t e q hin h hcmd hreset
  rcases step_operandsOnly_or_cmd_or_reset h with hop | ⟨v, _, hin', -⟩ | ⟨d, _, hin', -⟩
  · exact ⟨hop.status_eq, hop.errcode_eq⟩
  · cases hin.symm.trans hin'
    exact absurd rfl (hcmd v)
  · cases hin.symm.trans hin'
    exact absurd rfl (hreset d)

/-- Settles O49: the step answers, and neither a command nor any other event changes the
parameters. -/
theorem stepAlwaysAnswers : Obligations.StepAlwaysAnswers := by
  refine fun s => ⟨?_, step_of_no_inputs⟩
  obtain ⟨t, ht⟩ := step_answers s
  refine ⟨t, ht, ?_⟩
  rcases step_operandsOnly_or_cmd_or_reset ht with hop | ⟨v, q, -, hrun⟩ | ⟨d, q, -, rfl⟩
  · exact hop.cfg_eq
  · obtain ⟨u, hu, hcfg, -⟩ := runCommand_keeps_port v { s with inputs := q, response := .accepted }
    cases hu.symm.trans hrun
    exact hcfg
  · rfl

/-! ## The key store (R17, R23) -/

/-- A word written to `CMD` leaves the key store and `KEY_VALID` alone, or it is SETKEY's and writes
them. -/
theorem runCommand_keyStore {v : Word} {s t : State} (h : runCommand v s = .next t) :
    (t.key = s.key ∧ t.rk = s.rk ∧ t.status.getLsbD 0 = s.status.getLsbD 0) ∨
    (v = encode .setkey ∧ t.key = s.keyIn ∧ t.rk = keyExpansion s.keyIn ∧
      t.status.getLsbD 0 = true) := by
  cases hd : decode v with
  | error e =>
    cases (runCommand_illegal hd).symm.trans h
    exact .inl ⟨rfl, rfl, by simp⟩
  | ok i =>
    rw [runCommand_ok hd] at h
    by_cases hi : i = .setkey
    · subst hi
      cases h
      exact .inr ⟨(decode_eq_ok_iff.mp hd).symm, rfl, rfl, by simp [setKeyValid, keyValidMask]⟩
    · obtain ⟨-, -, -, -, hkeep, -⟩ := commandsWriteOnlyTheirDestinations i s t h
      exact .inl (hkeep hi)

/-- Settles O37: the only word that writes the key store is SETKEY's. -/
theorem onlySetkeyAndResetWriteTheKeyStore : Obligations.OnlySetkeyAndResetWriteTheKeyStore := by
  intro s t h
  rcases step_operandsOnly_or_cmd_or_reset h with hop | ⟨v, q, hin, hrun⟩ | ⟨d, q, hin, -⟩
  · exact .inl ⟨hop.key_eq, hop.rk_eq⟩
  · rcases runCommand_keyStore hrun with ⟨hkey, hrk, -⟩ | ⟨rfl, hkey, hrk, -⟩
    · exact .inl ⟨hkey, hrk⟩
    · exact .inr (.inl ⟨q, hin, hkey, hrk⟩)
  · exact .inr (.inr ⟨d, q, hin⟩)

/-- What a step does to `KEY_VALID`. -/
theorem step_keyValid {s t : State} (h : step s = .next t) :
    t.status.getLsbD 0 = s.status.getLsbD 0 ∨
    ((∃ q, s.inputs = .write 32 0x000 (encode .setkey) :: q) ∧ t.status.getLsbD 0 = true) ∨
    ((∃ d q, s.inputs = .reset d :: q) ∧ t.status.getLsbD 0 = false) := by
  rcases step_operandsOnly_or_cmd_or_reset h with hop | ⟨v, q, hin, hrun⟩ | ⟨d, q, hin, rfl⟩
  · exact .inl (congrArg (·.getLsbD 0) hop.status_eq)
  · rcases runCommand_keyStore hrun with ⟨-, -, hbit⟩ | ⟨rfl, -, -, hbit⟩
    · exact .inl hbit
    · exact .inr (.inl ⟨⟨q, hin⟩, hbit⟩)
  · exact .inr (.inr ⟨⟨d, q, hin⟩, by simp⟩)

/-- Settles O38: a step that changes the bit is SETKEY, which leaves it set, or a reset, which
leaves it clear. -/
theorem keyValidSetBySetkeyClearedByReset : Obligations.KeyValidSetBySetkeyClearedByReset := by
  intro s t h
  have clash {b : Bool} {P : Prop} (h0 : b = false) (h1 : b = true) : P :=
    absurd (h0.symm.trans h1) Bool.false_ne_true
  rcases step_keyValid h with hbit | ⟨hset, hbit⟩ | ⟨hreset, hbit⟩
  · rw [hbit]
    exact ⟨clash, fun h1 h0 => clash h0 h1⟩
  · exact ⟨fun _ _ => hset, fun _ h0 => clash h0 hbit⟩
  · exact ⟨fun _ h1 => clash hbit h1, fun _ _ => hreset⟩

end Sys2Proof.Machine
end

section
/-! SUPPORT. Key material as a flow of information (`10_state.md` rules R11 and R23, `20_memory.md`
rule R43): two states that differ in `KEY_IN`, `KEY` and `RK` only take the same path in every event
but an ENCBLK or CTRXOR, and end in two such states. -/

namespace Sys2Proof.Machine

/-- `s` with other key material. -/
def State.withKeyMaterial (s : State) (b k : Block) (r : RoundKeys) : State :=
  { s with keyIn := b, key := k, rk := r }

section
variable (b k : Block) (r : RoundKeys)

/-- No host read returns key material. -/
theorem readTarget_withKeyMaterial (s : State) (t : Target) :
    readTarget (s.withKeyMaterial b k r) t = readTarget s t := by
  cases t with
  | pbufWord w => rfl
  | reg g => cases g <;> rfl

/-- A host write stores at most the written word itself in key material. -/
theorem writeTarget_withKeyMaterial (s : State) (t : Target) (v : Word) :
    ∃ b', writeTarget (s.withKeyMaterial b k r) t v =
      (writeTarget s t v).withKeyMaterial b' k r := by
  cases t with
  | pbufWord w => exact ⟨b, rfl⟩
  | reg g =>
    cases g with
    | keyIn j => exact ⟨setGroupWord b j v, rfl⟩
    | _ => exact ⟨b, rfl⟩

/-- Every command but the two that run the cipher. -/
theorem exec_withKeyMaterial {i : Instr} {s t : State} (hencblk : i ≠ .encblk)
    (hctrxor : i ≠ .ctrxor) (h : exec i s = .next t) :
    ∃ k' r', exec i (s.withKeyMaterial b k r) = .next (t.withKeyMaterial b k' r') := by
  cases i with
  | encblk => exact absurd rfl hencblk
  | ctrxor => exact absurd rfl hctrxor
  | setkey => cases h; exact ⟨b, keyExpansion b, rfl⟩
  | buildnonce | calcroute => cases h; exact ⟨k, r, rfl⟩
  | parsehdr =>
    refine ⟨k, r, ?_⟩
    rcases execParsehdr_cases s with ⟨hr, hs⟩ | ⟨hr, h16, hs⟩ | ⟨hr, h16, hs⟩ <;>
      cases hs.symm.trans h
    · exact execParsehdr_of_out_of_range (s := s.withKeyMaterial b k r) hr
    · exact execParsehdr_of_short (s := s.withKeyMaterial b k r) hr h16
    · exact execParsehdr_of_fits (s := s.withKeyMaterial b k r) hr h16

theorem runCommand_withKeyMaterial {v : Word} {s t : State} (hencblk : v ≠ encode .encblk)
    (hctrxor : v ≠ encode .ctrxor) (h : runCommand v s = .next t) :
    ∃ k' r', runCommand v (s.withKeyMaterial b k r) = .next (t.withKeyMaterial b k' r') := by
  cases hd : decode v with
  | error e =>
    cases (runCommand_illegal hd).symm.trans h
    exact ⟨k, r, runCommand_illegal hd⟩
  | ok i =>
    obtain rfl := decode_eq_ok_iff.mp hd
    rw [runCommand_ok hd] at h ⊢
    exact exec_withKeyMaterial b k r (ne_of_apply_ne encode hencblk)
      (ne_of_apply_ne encode hctrxor) h

/-- A transaction with `CMD` as its target is 32 bits wide at offset 0. -/
theorem admitted_cmd {n width off : Nat} (h : admitted n width off = some (.reg .cmd)) :
    width = 32 ∧ off = 0x000 := by
  obtain ⟨hwidth, -, ⟨g, hg, h1, hat⟩ | ⟨hpbuf, -⟩⟩ := admitted_cases h
  · cases hg
    exact ⟨hwidth, registerAt_cmd h1 hat⟩
  · cases hpbuf

/-- The relational form of one host event. -/
theorem hostEvent_withKeyMaterial {e : HostEvent} {s t : State}
    (hencblk : e ≠ .write 32 0x000 (encode .encblk))
    (hctrxor : e ≠ .write 32 0x000 (encode .ctrxor)) (h : hostEvent e s = .next t) :
    ∃ b' k' r', hostEvent e (s.withKeyMaterial b k r) = .next (t.withKeyMaterial b' k' r') := by
  cases e with
  | reset d => cases h; exact ⟨zeroBlock, d.key, d.rk, rfl⟩
  | read width off =>
    refine ⟨b, k, r, ?_⟩
    cases ha : admitted s.cfg.pbufSize width off with
    | none =>
      cases (hostRead_refused ha).symm.trans h
      exact hostRead_refused (s := s.withKeyMaterial b k r) ha
    | some u =>
      cases (hostRead_mapped ha).symm.trans h
      rw [← readTarget_withKeyMaterial b k r]
      exact hostRead_mapped (s := s.withKeyMaterial b k r) ha
  | write width off v =>
    cases ha : admitted s.cfg.pbufSize width off with
    | none =>
      cases (hostWrite_refused ha).symm.trans h
      exact ⟨b, k, r, hostWrite_refused (s := s.withKeyMaterial b k r) ha⟩
    | some u =>
      by_cases hu : u = .reg .cmd
      · subst hu
        obtain ⟨rfl, rfl⟩ := admitted_cmd ha
        obtain ⟨k', r', hrun⟩ := runCommand_withKeyMaterial b k r
          (fun hv => hencblk (by rw [hv])) (fun hv => hctrxor (by rw [hv]))
          ((hostWrite_cmd ha).symm.trans h)
        exact ⟨b, k', r', (hostWrite_cmd (s := s.withKeyMaterial b k r) ha).trans hrun⟩
      · cases (hostWrite_stores ha hu).symm.trans h
        obtain ⟨b', hb'⟩ := writeTarget_withKeyMaterial b k r (respond .accepted s) u v
        refine ⟨b', k, r, (hostWrite_stores (s := s.withKeyMaterial b k r) ha hu).trans ?_⟩
        exact congrArg _ hb'

end

/-- Settles O39: a step is one host event, which the relation covers, or nothing. -/
theorem keyMaterialFlowsOnlyThroughTheCipher :
    Obligations.KeyMaterialFlowsOnlyThroughTheCipher := by
  intro s t b k r h hencblk hctrxor
  rcases hostStep_cases s with ⟨hin, hs⟩ | ⟨e, q, hin, hs⟩
  · cases hs.symm.trans h
    exact ⟨b, k, r, step_of_no_inputs (s := s.withKeyMaterial b k r) hin⟩
  · obtain ⟨b', k', r', hevent⟩ := hostEvent_withKeyMaterial b k r
      (fun he => hencblk q (by rw [hin, he]; rfl)) (fun he => hctrxor q (by rw [hin, he]; rfl))
      (hs.symm.trans h)
    exact ⟨b', k', r', (step_of_inputs (s := s.withKeyMaterial b k r) hin).trans hevent⟩

end Sys2Proof.Machine
end

section
/-! SUPPORT. Reset and the invariant (`10_state.md` rules R17 to R19, R24, R25 and R28,
`70_reset_and_hazards.md` rule R160): a reset brings it about, and every command and every other
event keeps it. -/

namespace Sys2Proof.Machine

/-! ## Reset (R28, R160) -/

theorem getElem_zeroBlock (k : Fin 16) : zeroBlock[k] = 0 := by
  decide +revert

/-- Settles O46: the registers of a reset state are zero, whatever the draw. -/
theorem resetEventClearsTheRegisters : Obligations.ResetEventClearsTheRegisters := by
  refine fun s d q => ⟨_, step_event s (.reset d) q, fun k => ?_,
    rfl, rfl, rfl, rfl, rfl, rfl, rfl, rfl, rfl, rfl⟩
  have hk := getElem_zeroBlock k
  exact ⟨hk, hk, hk, hk⟩

/-- The draw that brings given contents of the unspecified cells. -/
def drawOf (k : Block) (r : RoundKeys) (p : Nat → Byte) (n : Nat) : ResetDraw :=
  { key := k, rk := r, pbuf := (List.range n).map p }

theorem read_resetEvent_drawOf (k : Block) (r : RoundKeys) (p : Nat → Byte) (s : State) {a : Nat}
    (ha : a < s.cfg.pbufSize) :
    (resetEvent (drawOf k r p s.cfg.pbufSize) s).pbuf.read a = p a := by
  simp [drawOf, read_bytesMemory, ha]

/-- Settles O47: the event brings the contents as its draw. -/
theorem resetLeavesAnyStoreContents : Obligations.ResetLeavesAnyStoreContents :=
  fun s k r p q => ⟨drawOf k r p s.cfg.pbufSize, _, step_event s _ q, rfl, rfl,
    fun _ => read_resetEvent_drawOf k r p { s with inputs := q }, rfl, rfl⟩

/-- A reset brings the invariant about, whatever it draws. -/
theorem resetEvent_inv (d : ResetDraw) {s : State} (h : s.ParametersValid) :
    (resetEvent d s).Inv := by
  have hbuf : (resetEvent d s).BufferOk := by
    refine ⟨bytesMemory_wf 0 _, fun c hc => ?_⟩
    have hlt := (mem_bytesMemory hc).2
    rw [List.length_take] at hlt
    exact Nat.lt_of_lt_of_le hlt (by simp)
  have hhops : (resetEvent d s).RouteConsistent := by
    rw [State.RouteConsistent, resetEvent_route]
    decide
  exact ⟨h, hbuf, BitVec.zero_and, Nat.zero_le 4, fun _ => rfl, BitVec.zero_and, hhops,
    fun hbit => by simp at hbit⟩

/-- Settles O50: `State.reset` is a reset of itself with zeros drawn. -/
theorem resetStateMeetsTheInvariant : Obligations.ResetStateMeetsTheInvariant :=
  resetEvent_inv (s := State.reset) ⟨zeroBlock, zeroRoundKeys, []⟩ (by decide)

/-! ## The invariant under the endings of a command -/

theorem State.Inv.succeed {s : State} (h : s.Inv) : (succeed s).Inv := by
  obtain ⟨hcfg, hbuf, hstatus, -, -, hroute, hhops, hkey⟩ := h
  exact ⟨hcfg, hbuf, (setOk_reserved ..).trans hstatus, Nat.zero_le 4, fun _ => rfl, hroute,
    hhops, fun hbit => hkey (by simpa using hbit)⟩

theorem errWord_toNat_le (c : ErrCode) : (errWord c).toNat ≤ 4 := by
  cases c <;> decide

theorem State.Inv.raiseError {s : State} (c : ErrCode) (h : s.Inv) : (raiseError c s).Inv := by
  obtain ⟨hcfg, hbuf, hstatus, -, -, hroute, hhops, hkey⟩ := h
  exact ⟨hcfg, hbuf, (setOk_reserved ..).trans hstatus, errWord_toNat_le c,
    fun hok => by simp at hok, hroute, hhops, fun hbit => hkey (by simpa using hbit)⟩

/-! ## The invariant under the writes of a command -/

theorem State.Inv.setkey {s : State} (h : s.Inv) :
    State.Inv { s with
      key := s.keyIn
      rk := keyExpansion s.keyIn
      status := setKeyValid s.status } := by
  obtain ⟨hcfg, hbuf, hstatus, herr, hrecord, hroute, hhops, -⟩ := h
  refine ⟨hcfg, hbuf, (setKeyValid_reserved _).trans hstatus, herr, fun hok => hrecord ?_, hroute,
    hhops, fun _ => rfl⟩
  simpa [setKeyValid, keyValidMask] using hok

theorem State.Inv.ctrxor {s : State} (h : s.Inv)
    (hr : s.ctrOff.toNat + s.ctrLen.toNat ≤ s.cfg.pbufSize) :
    State.Inv { s with pbuf := ctrxorBuffer s } := by
  obtain ⟨hcfg, ⟨hwf, hbelow⟩, hrest⟩ := h
  exact ⟨hcfg, ⟨ctrxorBuffer_wf hwf, writeBytes_below hbelow (by simpa using hr)⟩, hrest⟩

/-- The two hop counts and their difference, as `ROUTE` holds them. -/
theorem State.Inv.calcroute {s : State} (h : s.Inv) :
    State.Inv { s with route := packRoute (calcRouting (byteOf s.hdrMisc 0) s.hdrTo) } := by
  obtain ⟨hcfg, hbuf, hstatus, herr, hrecord, -, -, hkey⟩ := h
  rw [calcRouting_byteOf, ← routeWord]
  refine ⟨hcfg, hbuf, hstatus, herr, hrecord, routeWord_reserved .., ⟨?_, ?_⟩, hkey⟩
  · have hlimit := (s.hdrMisc.extractLsb' 0 3).isLt
    have hstart := (s.hdrMisc.extractLsb' 5 3).isLt
    rw [routeWord_skipCount, routeWord_hopLimit, routeWord_hopStart, BitVec.toNat_sub,
      BitVec.toNat_setWidth_of_le (by decide), BitVec.toNat_setWidth_of_le (by decide)]
    omega
  · rw [routeWord_skipUf, routeWord_hopLimit, routeWord_hopStart]

theorem exec_keeps_inv {i : Instr} {s t : State} (h : s.Inv) (hexec : exec i s = .next t) :
    t.Inv := by
  rcases exec_cases i s with
    ⟨c, -, hc⟩ | ⟨-, hc⟩ | ⟨-, hc⟩ | ⟨-, hr, hc⟩ | ⟨-, hc⟩ | ⟨-, hc⟩ | ⟨-, hc⟩ <;>
    cases hc.symm.trans hexec
  case inl => exact h.raiseError c
  case inr.inl => exact h.setkey.succeed
  case inr.inr.inr.inl => exact (h.ctrxor hr).succeed
  case inr.inr.inr.inr.inr.inr => exact h.calcroute.succeed
  all_goals exact State.Inv.succeed (by exact h)

theorem runCommand_keeps_inv {v : Word} {s t : State} (h : s.Inv)
    (hrun : runCommand v s = .next t) : t.Inv := by
  cases hd : decode v with
  | ok i => exact exec_keeps_inv h ((runCommand_ok hd).symm.trans hrun)
  | error e =>
    cases (runCommand_illegal hd).symm.trans hrun
    exact h.raiseError .illegalCmd

/-! ## The invariant under every other event -/

theorem State.OperandsOnly.bufferOk {s t : State} (h : s.OperandsOnly t) (hs : s.BufferOk)
    (hcfg : s.ParametersValid) : t.BufferOk := by
  obtain ⟨hwf, hbelow⟩ := hs
  obtain ⟨h4, -⟩ := hcfg
  rw [State.BufferOk, h.cfg_eq]
  rcases h.pbuf_eq with hsame | ⟨w, v, hw, hword⟩
  · rw [hsame]
    exact ⟨hwf, hbelow⟩
  · rw [hword]
    exact ⟨setPbufWord_wf hwf w v, setPbufWord_below hbelow v (by omega)⟩

theorem State.OperandsOnly.inv {s t : State} (h : s.OperandsOnly t) (hs : s.Inv) : t.Inv := by
  obtain ⟨hcfg, hbuf, hrest⟩ := hs
  refine ⟨by rwa [State.ParametersValid, h.cfg_eq], h.bufferOk hbuf hcfg, ?_⟩
  simpa only [State.StatusReservedZero, State.ErrcodeLegal, State.RecordConsistent,
    State.RouteReservedZero, State.RouteConsistent, State.KeyStoreOk, h.status_eq, h.errcode_eq,
    h.route_eq, h.key_eq, h.rk_eq] using hrest

/-- Settles O51: an event changes operands only, or is a command or a reset. -/
theorem stepKeepsTheInvariant : Obligations.StepKeepsTheInvariant := by
  intro s t hinv h
  rcases step_operandsOnly_or_cmd_or_reset h with hop | ⟨v, q, -, hrun⟩ | ⟨d, q, -, rfl⟩
  · exact hop.inv hinv
  · exact runCommand_keeps_inv (s := { s with inputs := q, response := .accepted }) hinv hrun
  · obtain ⟨hcfg, -⟩ := hinv
    exact resetEvent_inv d (s := { s with inputs := q }) hcfg

end Sys2Proof.Machine
end
